-- ==== Sys2Proof/Config.lean ====
section
/-! DEFINITION. What one implementation fixes: the open parameter `ENGINE_BASE` (00_scope.md R5, 92_eei_decisions.md D2). -/

namespace Sys2Proof.Config

/-- `ENGINE_BASE` in units of 32 bytes. OPEN (R5, I12): nothing can be proved of its value. -/
opaque engineBaseIndex : Nat

/-- `ENGINE_BASE`, the byte address of register offset 0x00: open, and 32-byte aligned (R5, D2). -/
def engineBase : Nat := 32 * engineBaseIndex

end Sys2Proof.Config
end

