-- ==== Sys2Proof/Word.lean ====
section
/-! DEFINITION. The bit vectors the spec gives a width to (00_scope.md R5, R7). -/

namespace Sys2Proof

/-- The host's word: a command word, or what a register read returns (R5, "Host word width"). -/
abbrev Word := BitVec 32

/-- A 5-bit group (R5, "Group width"). -/
abbrev Group := BitVec 5

/-- A byte (R5, "Byte width"). -/
abbrev Byte := BitVec 8

/-- A value of the polymod accumulator `CHK`, or of `SUM` (R5, R14). -/
abbrev Chk := BitVec 30

/-- A value of the repacker accumulator `ACC` (R5, R14). -/
abbrev Acc := BitVec 12

end Sys2Proof
end

