-- ==== Sys2Proof/Syntax.lean ====
section
/-! DEFINITION. The commands (30_encoding.md R52, R54), and the lines of a host program in the spec's assembler syntax
(00_scope.md R12, 30_encoding.md R62, R63). -/

namespace Sys2Proof

/-- The two checksum variants (R2): value 0 is Bech32, value 1 is Bech32m. -/
inductive Variant where
  | bech32
  | bech32m
deriving DecidableEq, Repr

/-- The eleven mnemonics of R54. -/
inductive Mnemonic where
  | NOP | INIT | POLY | HRPH | HRPL | ENC8 | ENCFLUSH | DEC5 | DECEND | FIN | VERIFY
deriving DecidableEq, Repr

/-- The commands of R54, one constructor a row. The fields hold exactly the legal values of the row's operand form (R52)
and the feedback bit `P` where the row has one (R51), so every value of this type is a legal command. -/
inductive Instr where
  /-- `NOP` (R65) -/
  | nop
  /-- `INIT v` (R66) -/
  | init (v : Variant)
  /-- `POLY g` (R68) -/
  | poly (g : Group)
  /-- `HRPH c` (R69) -/
  | hrph (c : Byte)
  /-- `HRPL c` (R70) -/
  | hrpl (c : Byte)
  /-- `ENC8[.P] b` (R79) -/
  | enc8 (p : Bool) (b : Byte)
  /-- `ENCFLUSH[.P]` (R80) -/
  | encflush (p : Bool)
  /-- `DEC5[.P] g` (R81) -/
  | dec5 (p : Bool) (g : Group)
  /-- `DECEND` (R82) -/
  | decend
  /-- `FIN` (R73) -/
  | fin
  /-- `VERIFY` (R75) -/
  | verify
deriving DecidableEq, Repr

/-- The row of R54 a command belongs to. -/
def Instr.mnemonic : Instr → Mnemonic
  | .nop => .NOP
  | .init _ => .INIT
  | .poly _ => .POLY
  | .hrph _ => .HRPH
  | .hrpl _ => .HRPL
  | .enc8 _ _ => .ENC8
  | .encflush _ => .ENCFLUSH
  | .dec5 _ _ => .DEC5
  | .decend => .DECEND
  | .fin => .FIN
  | .verify => .VERIFY

/-- The registers of the window (20_memory.md R34); the last two are the reserved offsets 0x18 and 0x1C. -/
inductive Reg where
  | cmd | status | out | sum | chk | acc | reserved18 | reserved1C
deriving DecidableEq, Repr

/-- The operand forms of R52. -/
inductive Form where
  | none | variant | group | char | byte
deriving DecidableEq, Repr

/-- The form of each command's operand (R52, R54). -/
def Mnemonic.form : Mnemonic → Form
  | .NOP | .ENCFLUSH | .DECEND | .FIN | .VERIFY => .none
  | .INIT => .variant
  | .POLY | .DEC5 => .group
  | .HRPH | .HRPL => .char
  | .ENC8 => .byte

/-- The commands that may carry the suffix `.P` (R51, R62). -/
def Mnemonic.takesFeedback : Mnemonic → Bool
  | .ENC8 | .ENCFLUSH | .DEC5 => true
  | .NOP | .INIT | .POLY | .HRPH | .HRPL | .DECEND | .FIN | .VERIFY => false

/-- An operand as the assembler reads it (R62): a number, a character literal, or one of the two names `INIT` takes. -/
inductive Operand where
  | num (n : Nat)
  | chr (c : Char)
  | variantName (v : Variant)
deriving DecidableEq, Repr

/-- One command line `MNEMONIC[.P] [operand]` (R62), before the assembler has checked it. -/
structure AsmCommand where
  mnemonic : Mnemonic
  suffixP : Bool
  operand : Option Operand
deriving DecidableEq, Repr

/-- One line of a host program (R12): a command, a raw word, a register read `rd NAME` (R62), or a pseudo-instruction
(R63). -/
inductive AsmLine where
  | command (c : AsmCommand)
  /-- `.word x`, which may be illegal -/
  | word (x : Word)
  | rd (r : Reg)
  | hrpsep
  | seed (s : List Operand)
  | polys (gs : List Operand)
  | encdata (suffixP : Bool) (bs : List Operand)
  | decdata (suffixP : Bool) (gs : List Operand)
deriving DecidableEq, Repr

end Sys2Proof
end

