-- ==== Sys2Proof/Decode.lean ====
section
/-! DEFINITION. The decoder and the encoder (30_encoding.md R48 to R61): the opcode map of R54 as a list of rows, a total
decoder that rejects by name, and the encoder of R62. -/

namespace Sys2Proof

/-! ### The fields of a command word (R49) -/

/-- `OP = w[31:28]` (R50). -/
def opField (w : Word) : BitVec 4 := w.extractLsb' 28 4

/-- `RSV = w[27:9]` (R53). -/
def rsvField (w : Word) : BitVec 19 := w.extractLsb' 9 19

/-- `P = w[8]` (R51). -/
def pField (w : Word) : Bool := w.getLsbD 8

/-- `D = w[7:0]` (R52). -/
def dField (w : Word) : Byte := w.extractLsb' 0 8

/-! ### The opcode map (R54) -/

/-- One row of R54. -/
structure Row where
  mnemonic : Mnemonic
  pattern : Word
  mask : Word
deriving DecidableEq, Repr

/-- The row of R54 of each mnemonic. -/
def Mnemonic.row : Mnemonic → Row
  | .NOP => ⟨.NOP, 0x00000000, 0xFFFFFFFF⟩
  | .INIT => ⟨.INIT, 0x10000000, 0xFFFFFFFE⟩
  | .POLY => ⟨.POLY, 0x20000000, 0xFFFFFFE0⟩
  | .HRPH => ⟨.HRPH, 0x30000000, 0xFFFFFF00⟩
  | .HRPL => ⟨.HRPL, 0x40000000, 0xFFFFFF00⟩
  | .ENC8 => ⟨.ENC8, 0x50000000, 0xFFFFFE00⟩
  | .ENCFLUSH => ⟨.ENCFLUSH, 0x60000000, 0xFFFFFEFF⟩
  | .DEC5 => ⟨.DEC5, 0x70000000, 0xFFFFFEE0⟩
  | .DECEND => ⟨.DECEND, 0x80000000, 0xFFFFFFFF⟩
  | .FIN => ⟨.FIN, 0x90000000, 0xFFFFFFFF⟩
  | .VERIFY => ⟨.VERIFY, 0xA0000000, 0xFFFFFFFF⟩

/-- The eleven rows of R54, in the table's order. -/
def opcodeTable : List Row :=
  [Mnemonic.NOP, .INIT, .POLY, .HRPH, .HRPL, .ENC8, .ENCFLUSH, .DEC5, .DECEND, .FIN, .VERIFY].map Mnemonic.row

/-- "A word `w` encodes the row exactly when `(w AND mask) = match`" (R54). -/
def Row.encodes (r : Row) (w : Word) : Bool := w &&& r.mask == r.pattern

/-! ### Decoding (R60) -/

/-- Why a word is illegal, in R56's own words. The engine does not tell these apart (all raise `IllegalCommand`); the names
are the model's (log 10). -/
inductive IllegalWord where
  /-- `OP` is 0xB to 0xF (R57) -/
  | reservedOpcode
  /-- an `RSV` bit is set (R53) -/
  | reservedBits
  /-- `P = 1` on an opcode without feedback (R51) -/
  | feedbackBit
  /-- a `D` bit is set that the form requires to be zero (R52) -/
  | operandBits
deriving DecidableEq, Repr

/-- The name of the first rule an illegal word breaks. Used only for a word that matches no row. -/
def illegalReason (w : Word) : IllegalWord :=
  if 0xB#4 ≤ opField w then .reservedOpcode
  else if rsvField w ≠ 0 then .reservedBits
  else if pField w && opField w != 5 && opField w != 6 && opField w != 7 then .feedbackBit
  else .operandBits

/-- The variant a one-bit operand selects (R52, R66). -/
def variantOfBit : Bool → Variant
  | false => .bech32
  | true => .bech32m

/-- The command of a row, its operands taken from `P = w[8]` and `D = w[7:0]` (R52, R60). -/
def instrOfRow (m : Mnemonic) (w : Word) : Instr :=
  let d := dField w
  match m with
  | .NOP => .nop
  | .INIT => .init (variantOfBit (d.getLsbD 0))
  | .POLY => .poly (d.extractLsb' 0 5)
  | .HRPH => .hrph d
  | .HRPL => .hrpl d
  | .ENC8 => .enc8 (pField w) d
  | .ENCFLUSH => .encflush (pField w)
  | .DEC5 => .dec5 (pField w) (d.extractLsb' 0 5)
  | .DECEND => .decend
  | .FIN => .fin
  | .VERIFY => .verify

/-- R60: every word is exactly one legal command or illegal. -/
def decode (w : Word) : Except IllegalWord Instr :=
  match opcodeTable.find? (fun r => r.encodes w) with
  | some r => .ok (instrOfRow r.mnemonic w)
  | none => .error (illegalReason w)

/-! ### Encoding (R49, R62) -/

/-- A command word from its fields (R49), with `RSV = 0` (R53). -/
def commandWord (op : BitVec 4) (p : Bool) (d : Byte) : Word := op ++ 0#19 ++ BitVec.ofBool p ++ d

/-- The bit that stands for a variant (R52, R66). -/
def Variant.bit : Variant → Bool
  | .bech32 => false
  | .bech32m => true

/-- The word of a command (R54, R62). -/
def encode : Instr → Word
  | .nop => commandWord 0x0 false 0
  | .init v => commandWord 0x1 false (BitVec.setWidth 8 (BitVec.ofBool v.bit))
  | .poly g => commandWord 0x2 false (g.setWidth 8)
  | .hrph c => commandWord 0x3 false c
  | .hrpl c => commandWord 0x4 false c
  | .enc8 p b => commandWord 0x5 p b
  | .encflush p => commandWord 0x6 p 0
  | .dec5 p g => commandWord 0x7 p (g.setWidth 8)
  | .decend => commandWord 0x8 false 0
  | .fin => commandWord 0x9 false 0
  | .verify => commandWord 0xA false 0

/-! ### The opcode table's own words -/

/-- The command word whose low `nbits` bits are those of `w` and whose bits above are 0. Every row has 32 bits (R48), one
word, and the engine has no byte order (20_memory.md R40), so nothing is laid out in bytes (log 12). -/
def tableWord (nbits w : Nat) : Word := BitVec.ofNat 32 (w % 2 ^ nbits)

/-- What the decoder reads from a row's word. -/
def decodeTableWord (nbits w : Nat) : Option Instr :=
  match decode (tableWord nbits w) with
  | .ok i => some i
  | .error _ => none

end Sys2Proof
end

