-- ==== Sys2Proof/Machine/State.lean ====
section
/-! DEFINITION. The architectural state (10_state.md R14), the host's side of the interface (00_scope.md R9, R12; 10_state.md
R28), the reasons a step can stop, and reset (10_state.md R32). -/

namespace Sys2Proof.Machine

/-- The repacker's direction (R20). The value 3 of the 2-bit field is never held (R14), so it has no constructor. -/
inductive Mode where
  | idle
  | enc
  | dec
deriving DecidableEq, Repr

/-- The three errors the engine raises (60_exceptions.md R86). -/
inductive EngineError where
  | illegalCommand
  | sequenceError
  | paddingError
deriving DecidableEq, Repr

/-- The fields of the `OUT` register (R14, R23). -/
structure Out where
  /-- `OUT.D0` -/
  d0 : Byte
  /-- `OUT.D1` -/
  d1 : Byte
  /-- `OUT.CNT` -/
  cnt : BitVec 2
deriving DecidableEq, Repr

/-- "The architectural state of the engine is exactly the fields in the table below. A state is a record of these fields"
(R14). -/
structure Engine where
  /-- `CHK` (R15) -/
  chk : Chk
  /-- `VARIANT` (R17) -/
  variant : Variant
  /-- `ACC` (R18) -/
  acc : Acc
  /-- `NBITS` (R19) -/
  nbits : BitVec 4
  /-- `MODE` (R20) -/
  mode : Mode
  /-- `SUM` (R22) -/
  sum : Chk
  /-- `OUT` (R23) -/
  out : Out
  /-- `STATUS.VOK` (R25) -/
  vok : Bool
  /-- `STATUS.ERR_ILL` (R26) -/
  errIll : Bool
  /-- `STATUS.ERR_SEQ` (R26) -/
  errSeq : Bool
  /-- `STATUS.ERR_PAD` (R26) -/
  errPad : Bool
  /-- `STATUS.CAUSE` (R27): `none` is code 0, an error its code of R86. Codes 4 to 15 are never written. -/
  cause : Option EngineError
deriving DecidableEq, Repr

/-- One thing the outside world does to the engine: a host access (R9), at a byte offset from `ENGINE_BASE` and of a size in
bytes, or the assertion of the reset input (70_reset_and_hazards.md R98). A negative offset is an address below
`ENGINE_BASE` (log 3). -/
inductive HostEvent where
  /-- `MemRead(ENGINE_BASE + offset, size)` -/
  | read (offset : Int) (size : Nat)
  /-- `MemWrite(ENGINE_BASE + offset, size, value)` -/
  | write (offset : Int) (size : Nat) (value : Word)
  /-- the reset input is asserted -/
  | reset
deriving DecidableEq, Repr

/-- The engine, and the host's side of the interface: the lines the host has still to issue, where it stands in its list, and
what its reads returned (R12, R28; log 1). -/
structure State where
  /-- the engine's architectural state (R14) -/
  engine : Engine
  /-- the host's accesses not yet served, oldest first (R44) -/
  pending : List HostEvent
  /-- the index of the next line in the host's list (R28) -/
  position : Nat
  /-- the words the host's reads returned, newest first (R9) -/
  reads : List Word
deriving DecidableEq, Repr

/-- Why the machine stops with a fault. -/
inductive Fault where
  /-- Raised by the bus on an access whose address is not in the window, the engine's one address space (20_memory.md R33).
  Safe: the engine is not reached by such an access, and the model only declines to go on (log 4). -/
  | outsideWindow
deriving DecidableEq, Repr

/-- Why a step has no meaning. -/
inductive Refusal where
  /-- An instruction that exec rejects by name because the model gives it no meaning yet. No arm of exec answers it. Safe. -/
  | notModelled (mnemonic : String)
  /-- Raised by the bus on an access of a size other than 4 bytes, which "has no defined effect" (20_memory.md R35). Safe. -/
  | accessSize
  /-- Raised by the bus on an access at an address that is not 4-byte aligned (20_memory.md R35). Safe. -/
  | misalignedAccess
deriving DecidableEq, Repr

/-- What a step answers. -/
abbrev Result := Host.Outcome State Fault Refusal

/-- The engine after reset: R32, field by field. -/
def Engine.reset : Engine where
  chk := 0x00000001
  variant := .bech32
  acc := 0
  nbits := 0
  mode := .idle
  sum := 0
  out := ⟨0, 0, 0⟩
  vok := false
  errIll := false
  errSeq := false
  errPad := false
  cause := none

/-- The machine right after reset: the engine as R32 says, waiting for host accesses (70_reset_and_hazards.md R100), with
none issued yet (log 1). -/
def State.reset : State where
  engine := Engine.reset
  pending := []
  position := 0
  reads := []

end Sys2Proof.Machine
end

