-- ==== Sys2Proof/Machine/Operands.lean ====
section
/-! DEFINITION. The values the commands compute with: the constants of 00_scope.md R5 and R11, the parts of a prefix character
(41_polymod.md R69, R70), the slices of the repacker (00_scope.md R7, 20_memory.md R41), the groups of a checksum (42_checksum.md
R74). -/

namespace Sys2Proof.Machine

/-- `GEN[i]` for `i = 0..4` (R5, R67). There are five generators; no other index is used. -/
def gen : Fin 5 → Chk
  | 0 => 0x3b6a57b2
  | 1 => 0x26508e6d
  | 2 => 0x1ea119fa
  | 3 => 0x3d4233dd
  | 4 => 0x2a1462b3

/-- `CONST(var)` (R11). -/
def variantConst : Variant → Chk
  | .bech32 => 0x00000001
  | .bech32m => 0x2bc830a3

/-- `zext_5(c[7:5])`, the group `HRPH` feeds (R69). -/
def highPart (c : Byte) : Group := (c.extractLsb' 5 3).setWidth 5

/-- `c[4:0]`, the group `HRPL` feeds (R70). -/
def lowPart (c : Byte) : Group := c.extractLsb' 0 5

/-- `zext_12(a[n-1:0])`: the low `n` bits, 0 when `n = 0` (R7, R79, R81). -/
def lowBits (a : Acc) (n : Nat) : Acc := (a.extractLsb' 0 n).setWidth 12

/-- The groups `ENC8` takes from the top of the `n` valid bits of `a` while at least 5 are left: `a[n-1:n-5]` first (R79). -/
def takeGroups (a : Acc) : Nat → List Group
  | n + 5 => a.extractLsb' n 5 :: takeGroups a n
  | _ => []

/-- How many of `n` valid bits are left when fewer than 5 remain (R79). -/
def bitsLeft : Nat → Nat
  | n + 5 => bitsLeft n
  | n => n

/-- The final partial group, `trunc_5(ACC[n-1:0] ++ 0^(5-n))` (R80). -/
def padGroup (a : Acc) (n : Nat) : Group := (a.extractLsb' 0 n ++ 0#(5 - n)).setWidth 5

/-- Group `j` of a checksum, `SUM[29-5j : 25-5j]`, for `j` from 0 to 5 (R74, 20_memory.md R42). -/
def checksumGroup (sum : Chk) (j : Fin 6) : Group := sum.extractLsb' (25 - 5 * j.val) 5

/-- The six groups of a checksum, most significant first (R74). -/
def checksumGroups (sum : Chk) : List Group := (List.finRange 6).map (checksumGroup sum)

end Sys2Proof.Machine
end

