-- ==== Sys2Proof/Machine/Flags.lean ====
section
/-! DEFINITION. The STATUS fields: their codes, what VERIFY computes, and the register words a host reads (10_state.md R23, R24;
20_memory.md R34, R36). -/

namespace Sys2Proof.Machine

/-- The 2-bit code of `MODE` (R20). -/
def Mode.code : Mode → BitVec 2
  | .idle => 0
  | .enc => 1
  | .dec => 2

/-- The cause code of an error (60_exceptions.md R86). -/
def EngineError.code : EngineError → BitVec 4
  | .illegalCommand => 1
  | .sequenceError => 2
  | .paddingError => 3

/-- The code `STATUS.CAUSE` holds: 0 is none (R86). -/
def causeCode : Option EngineError → BitVec 4
  | none => 0
  | some k => k.code

/-- The bit of `VARIANT` (R14): 0 is Bech32, 1 is Bech32m. -/
def variantFlag : Variant → Bool
  | .bech32 => false
  | .bech32m => true

/-- What `VERIFY` writes to `STATUS.VOK` (42_checksum.md R75). -/
def checksumOk (e : Engine) : Bool := e.chk == variantConst e.variant

/-- A field placed with its bit 0 at bit `lo` of a 32-bit register word. -/
def field {w : Nat} (lo : Nat) (v : BitVec w) : Word := v.setWidth 32 <<< lo

/-- The `STATUS` register word (R24): each field at its bits; every bit not listed there reads 0. -/
def statusWord (e : Engine) : Word :=
  field 0 (BitVec.ofBool e.vok) |||
  field 1 (BitVec.ofBool (variantFlag e.variant)) |||
  field 4 (BitVec.ofBool e.errIll) |||
  field 5 (BitVec.ofBool e.errSeq) |||
  field 6 (BitVec.ofBool e.errPad) |||
  field 8 (causeCode e.cause) |||
  field 16 e.mode.code |||
  field 20 e.nbits

/-- `OUT = zext_32(OUT.CNT ++ OUT.D1 ++ OUT.D0)` (R23). -/
def outWord (o : Out) : Word := BitVec.setWidth 32 (o.cnt ++ o.d1 ++ o.d0)

/-- What a read of a register returns (20_memory.md R34, R36): `CMD` and the reserved offsets read 0. -/
def regWord (r : Reg) (e : Engine) : Word :=
  match r with
  | .cmd => 0
  | .status => statusWord e
  | .out => outWord e.out
  | .sum => e.sum.setWidth 32
  | .chk => e.chk.setWidth 32
  | .acc => e.acc.setWidth 32
  | .reserved18 => 0
  | .reserved1C => 0

end Sys2Proof.Machine
end

