-- ==== Sys2Proof/Machine/Ops.lean ====
section
/-! DEFINITION. The shared operations: the polymod step (41_polymod.md R67), feeding, giving out, raising an error
(60_exceptions.md R89) and clearing the record, the frame of a command (30_encoding.md R60), and the register window
(20_memory.md R34, R35). -/

namespace Sys2Proof.Machine

/-! ### The polymod step -/

/-- `PolyStep(c, v)` (R67). -/
def polyStep (c : Chk) (v : Group) : Chk :=
  let b : BitVec 5 := c.extractLsb' 25 5
  let t : Chk := c.extractLsb' 0 25 ++ v
  (List.finRange 5).foldl (fun t i => if b.getLsbD i.val then t ^^^ gen i else t) t

/-- Polymod over a sequence of groups, from an accumulator `c` (R67). -/
def polyFeed (c : Chk) (gs : List Group) : Chk := gs.foldl polyStep c

/-- `if P = 1: CHK <- PolyStep(CHK, g)`, for each group in order (43_repack.md R83). -/
def Engine.feedback (p : Bool) (gs : List Group) (e : Engine) : Engine :=
  if p then { e with chk := polyFeed e.chk gs } else e

/-! ### Giving out and the repacker's state -/

/-- `OUT <- 0` (30_encoding.md R60). -/
def Engine.clearOut (e : Engine) : Engine := { e with out := ⟨0, 0, 0⟩ }

/-- What `OUT` holds after giving out these groups (R23, R79): the first in `D0`, the next in `D1`, the unused fields 0. -/
def outOfGroups : List Group → Out
  | [] => ⟨0, 0, 0⟩
  | g :: rest => ⟨g.setWidth 8, (rest.getLastD 0).setWidth 8, BitVec.ofNat 2 (rest.length + 1)⟩

/-- What `OUT` holds after giving out one byte (R81). -/
def outOfByte (b : Byte) : Out := ⟨b, 0, 1⟩

/-- Write `OUT`. -/
def Engine.give (o : Out) (e : Engine) : Engine := { e with out := o }

/-- Write `ACC`, `NBITS` and `MODE`, keeping the low `n` bits of `a` (R79, R81). -/
def Engine.hold (m : Mode) (a : Acc) (n : Nat) (e : Engine) : Engine :=
  { e with acc := lowBits a n, nbits := BitVec.ofNat 4 n, mode := m }

/-- `ACC <- 0; NBITS <- 0; MODE <- IDLE` (R80, R82). -/
def Engine.emptyRepacker (e : Engine) : Engine := { e with acc := 0, nbits := 0, mode := .idle }

/-! ### Errors: the engine's only exception mechanism (60_exceptions.md R89, R93, R94) -/

/-- `raise E(k)` (R89): set the sticky bit, and `CAUSE` if it is 0 (`Option.or` keeps a cause that is there). "Nothing else is written. There is no trap, no vector, no
saved program position and no change of mode." -/
def Engine.raise (k : EngineError) (e : Engine) : Engine :=
  { e with
    errIll := e.errIll || k == .illegalCommand
    errSeq := e.errSeq || k == .sequenceError
    errPad := e.errPad || k == .paddingError
    cause := e.cause.or (some k) }

/-- Clear the error record, as only a legal `INIT` (and reset) does (R94). There is no return from an error (R93). -/
def Engine.clearErrors (e : Engine) : Engine :=
  { e with errIll := false, errSeq := false, errPad := false, cause := none }

/-! ### The frame of a command (R60) -/

/-- Apply an operation to the engine; the host's side stays. -/
def State.onEngine (f : Engine → Engine) (s : State) : State := { s with engine := f s.engine }

/-- Exec of a legal word: `OUT <- 0`, then the command's own rule (R60). A command never stops the engine (R93). -/
def command (rule : Engine → Engine) (s : State) : Result := .next (s.onEngine fun e => rule e.clearOut)

/-- Exec of an illegal word: `OUT <- 0`, then `raise IllegalCommand(1)` (R60, R87). -/
def rejectIllegal (s : State) : Result := .next (s.onEngine fun e => e.clearOut.raise .illegalCommand)

/-! ### The register window -/

/-- The offset of a register from `ENGINE_BASE` (R34). -/
def regOffset : Reg → Nat
  | .cmd => 0x00
  | .status => 0x04
  | .out => 0x08
  | .sum => 0x0C
  | .chk => 0x10
  | .acc => 0x14
  | .reserved18 => 0x18
  | .reserved1C => 0x1C

/-- The registers in the order of R34. -/
def windowRegs : List Reg := [.cmd, .status, .out, .sum, .chk, .acc, .reserved18, .reserved1C]

/-- The register at an offset, if the offset is one of the eight of R34. -/
def regAt (offset : Int) : Option Reg := windowRegs.find? fun r => (regOffset r : Int) == offset

/-- Serve an access (R35): only a 4-byte access at an aligned address is defined, any other is refused; an aligned one
outside the window does not reach the engine (R33). `ENGINE_BASE` is 32-byte aligned, so an address is 4-byte aligned exactly
when its offset is. -/
def withReg (offset : Int) (size : Nat) (k : Reg → Result) : Result :=
  if size ≠ 4 then .refused .accessSize
  else if offset % 4 ≠ 0 then .refused .misalignedAccess
  else
    match regAt offset with
    | some r => k r
    | none => .fault .outsideWindow

/-- A host read of an absolute byte address (R9). -/
def readAt (address size : Nat) : HostEvent := .read ((address : Int) - Config.engineBase) size

/-- A host write of an absolute byte address (R9). -/
def writeAt (address size : Nat) (value : Word) : HostEvent := .write ((address : Int) - Config.engineBase) size value

/-- The write that carries a command word: `MemWrite(ENGINE_BASE + 0x00, 4, w)` (R12, R38). -/
def cmdWrite (w : Word) : HostEvent := .write 0 4 w

/-- A host read of a register (R12). -/
def regRead (r : Reg) : HostEvent := .read (regOffset r) 4

/-! ### The host's side -/

/-- The host's next line is taken: the index of the next line advances by one (R28). -/
def State.advance (rest : List HostEvent) (s : State) : State := { s with pending := rest, position := s.position + 1 }

/-- A read returns a word to the host and changes no state of the engine (R39). -/
def State.returned (w : Word) (s : State) : State := { s with reads := w :: s.reads }

/-- The host's next access becomes the write of this command word. -/
def State.placeCommand (w : Word) (s : State) : State := { s with pending := cmdWrite w :: s.pending.tail }

end Sys2Proof.Machine
end

