-- ==== Sys2Proof/Machine/Checksum.lean ====
section
/-! DEFINITION. Checksum creation and verification (42_checksum.md): FIN, VERIFY. -/

namespace Sys2Proof.Machine

/-- `FIN` (R73): rejected while the encoder holds unflushed payload bits (60_exceptions.md R90). -/
def execFin (s : State) : Result :=
  command (fun e =>
    if e.mode = .enc ∧ e.nbits ≠ 0 then e.raise .sequenceError
    else
      let c := polyFeed e.chk (List.replicate 6 0)
      { e with chk := c, sum := c ^^^ variantConst e.variant }) s

/-- `VERIFY` (R75): a mismatch is a result, not an error. -/
def execVerify (s : State) : Result := command (fun e => { e with vok := checksumOk e }) s

end Sys2Proof.Machine
end

