-- ==== Sys2Proof/Machine/Control.lean ====
section
/-! DEFINITION. Control commands (40_control.md): NOP, INIT. -/

namespace Sys2Proof.Machine

/-- `NOP` (R65): nothing beyond Exec's `OUT <- 0`. -/
def execNop (s : State) : Result := command (fun e => e) s

/-- `INIT v` (R66). -/
def execInit (v : Variant) (s : State) : Result :=
  command (fun e => { e.emptyRepacker.clearErrors with chk := 0x00000001, variant := v, sum := 0, vok := false }) s

end Sys2Proof.Machine
end

