-- ==== Sys2Proof/Machine/Polymod.lean ====
section
/-! DEFINITION. Polymod feed and prefix seeding (41_polymod.md): POLY, HRPH, HRPL. -/

namespace Sys2Proof.Machine

/-- `POLY g` (R68). -/
def execPoly (g : Group) (s : State) : Result :=
  command (fun e => { e with chk := polyStep e.chk g }) s

/-- `HRPH c` (R69); every byte is accepted (R71). -/
def execHrph (c : Byte) (s : State) : Result :=
  command (fun e => { e with chk := polyStep e.chk (highPart c) }) s

/-- `HRPL c` (R70); every byte is accepted (R71). -/
def execHrpl (c : Byte) (s : State) : Result :=
  command (fun e => { e with chk := polyStep e.chk (lowPart c) }) s

end Sys2Proof.Machine
end

