-- ==== Sys2Proof/Machine/Repack.lean ====
section
/-! DEFINITION. The repacker with polynomial feedback (43_repack.md): ENC8, ENCFLUSH, DEC5, DECEND. -/

namespace Sys2Proof.Machine

/-- `ENC8[.P] b` (R79): `n = NBITS + 8` valid bits, every complete group given out. -/
def execEnc8 (p : Bool) (b : Byte) (s : State) : Result :=
  command (fun e =>
    if e.mode = .dec then e.raise .sequenceError
    else
      let a : Acc := (e.acc <<< 8) ||| b.setWidth 12
      let n := e.nbits.toNat + 8
      let gs := takeGroups a n
      ((e.feedback p gs).give (outOfGroups gs)).hold .enc a (bitsLeft n)) s

/-- `ENCFLUSH[.P]` (R80): the final partial group, zero-padded, if there is one. -/
def execEncflush (p : Bool) (s : State) : Result :=
  command (fun e =>
    if e.mode = .dec then e.raise .sequenceError
    else
      let gs := if e.nbits = 0 then [] else [padGroup e.acc e.nbits.toNat]
      ((e.feedback p gs).give (outOfGroups gs)).emptyRepacker) s

/-- `DEC5[.P] g` (R81): `n = NBITS + 5` valid bits, a byte given out when there are 8. -/
def execDec5 (p : Bool) (g : Group) (s : State) : Result :=
  command (fun e =>
    if e.mode = .enc then e.raise .sequenceError
    else
      let a : Acc := (e.acc <<< 5) ||| g.setWidth 12
      let n := e.nbits.toNat + 5
      if 8 ≤ n then
        ((e.feedback p [g]).give (outOfByte (a.extractLsb' (n - 8) 8))).hold .dec a (n - 8)
      else (e.feedback p [g]).hold .dec a n) s

/-- `DECEND` (R82): `PaddingError` on five or more leftover bits or on a non-zero one; the repacker is emptied either way. -/
def execDecend (s : State) : Result :=
  command (fun e =>
    if e.mode = .enc then e.raise .sequenceError
    else if 5 ≤ e.nbits.toNat ∨ e.acc ≠ 0 then (e.raise .paddingError).emptyRepacker
    else e.emptyRepacker) s

end Sys2Proof.Machine
end

