-- ==== Sys2Proof/Machine/Dispatch.lean ====
section
/-! DEFINITION. Exec of a legal command: one arm per row of 30_encoding.md R54. -/

namespace Sys2Proof.Machine

def exec (i : Instr) (s : State) : Host.Outcome State Fault Refusal :=
  match i with
  | .nop => Sys2Proof.Machine.execNop s
  | .init v => Sys2Proof.Machine.execInit v s
  | .poly g => Sys2Proof.Machine.execPoly g s
  | .hrph c => Sys2Proof.Machine.execHrph c s
  | .hrpl c => Sys2Proof.Machine.execHrpl c s
  | .enc8 p b => Sys2Proof.Machine.execEnc8 p b s
  | .encflush p => Sys2Proof.Machine.execEncflush p s
  | .dec5 p g => Sys2Proof.Machine.execDec5 p g s
  | .decend => Sys2Proof.Machine.execDecend s
  | .fin => Sys2Proof.Machine.execFin s
  | .verify => Sys2Proof.Machine.execVerify s

end Sys2Proof.Machine
end

