-- ==== Sys2Proof/Machine/Bus.lean ====
section
/-! DEFINITION. Serving the host's accesses, one at a time in arrival order (20_memory.md R35 to R39, R44;
70_reset_and_hazards.md R98, R100). -/

namespace Sys2Proof.Machine

/-- `Exec(w)` (30_encoding.md R60, 20_memory.md R38): run the command the word encodes, or raise `IllegalCommand`. -/
def execWord (w : Word) (s : State) : Result :=
  match decode w with
  | .ok i => exec i s
  | .error _ => rejectIllegal s

/-- A read returns the register's word (R34, R36) and has no side effect (R39). -/
def readReg (r : Reg) (s : State) : Result := .next (s.returned (regWord r s.engine))

/-- A write of `CMD` executes the word (R38); a write of any other register of the window is ignored (R36, R37). -/
def writeReg (r : Reg) (w : Word) (s : State) : Result :=
  match r with
  | .cmd => execWord w s
  | .status => .next s
  | .out => .next s
  | .sum => .next s
  | .chk => .next s
  | .acc => .next s
  | .reserved18 => .next s
  | .reserved1C => .next s

/-- Reset puts every field of the engine at its value of R32 (R98); the host's side is not the engine's (log 5). -/
def serveReset (s : State) : Result := .next (s.onEngine fun _ => Engine.reset)

/-- Serve one event of the outside world. -/
def serve (ev : HostEvent) (s : State) : Result :=
  match ev with
  | .read offset size => withReg offset size fun r => readReg r s
  | .write offset size w => withReg offset size fun r => writeReg r w s
  | .reset => serveReset s

/-- Serve the oldest pending event; with none pending the engine waits (R44, R100). -/
def serveNext (s : State) : Result :=
  match s.pending with
  | [] => .next s
  | ev :: rest => serve ev (s.advance rest)

end Sys2Proof.Machine
end

