-- ==== Sys2Proof/WellFormed.lean ====
section
/-! DEFINITION. What the assembler accepts (30_encoding.md R62): "The assembler refuses an operand outside its form's legal
values (rule R52) and does not emit an illegal word."  `Instr` itself needs no check: its fields hold exactly the legal
values of R52, so the checks stand on the lines as a host writes them. -/

namespace Sys2Proof

/-- An operand the assembler can read: a character literal means its ASCII code (R62), so the character is an ASCII one,
and the two variant names belong to `INIT` alone. -/
def Operand.readable (f : Form) : Operand → Bool
  | .num _ => true
  | .chr c => decide (c.toNat < 128)
  | .variantName _ => f == .variant

/-- The number an operand stands for (R62): `BECH32` is 0 and `BECH32M` is 1. -/
def Operand.value : Operand → Nat
  | .num n => n
  | .chr c => c.toNat
  | .variantName .bech32 => 0
  | .variantName .bech32m => 1

/-- How many values a form's operand has: the legal values of R52 are those below it. -/
def Form.bound : Form → Nat
  | .none => 0
  | .variant => 2
  | .group => 32
  | .char => 256
  | .byte => 256

/-- An operand is there exactly when the form takes one, it can be read, and its value is one of the form's (R52, R62). -/
def Form.accepts (f : Form) : Option Operand → Bool
  | .none => f == .none
  | .some o => f != .none && o.readable f && decide (o.value < f.bound)

/-- A command line the assembler accepts: the suffix `.P` only where R62 allows it, and a legal operand. -/
def AsmCommand.wellFormed (c : AsmCommand) : Bool :=
  (!c.suffixP || c.mnemonic.takesFeedback) && c.mnemonic.form.accepts c.operand

/-- The commands a pseudo-instruction expands into, in order (R63); a line that is no pseudo-instruction has none here. -/
def AsmLine.expansion : AsmLine → List AsmCommand
  | .hrpsep => [⟨.POLY, false, some (.num 0)⟩]
  | .seed s =>
      s.map (fun c => ⟨.HRPH, false, some c⟩) ++ [⟨.POLY, false, some (.num 0)⟩] ++
        s.map (fun c => ⟨.HRPL, false, some c⟩)
  | .polys gs => gs.map (fun g => ⟨.POLY, false, some g⟩)
  | .encdata p bs => bs.map (fun b => ⟨.ENC8, p, some b⟩) ++ [⟨.ENCFLUSH, p, none⟩]
  | .decdata p gs => gs.map (fun g => ⟨.DEC5, p, some g⟩) ++ [⟨.DECEND, false, none⟩]
  | .command c => [c]
  | .word _ => []
  | .rd _ => []

/-- The registers `rd` can name: those R34 gives a name. -/
def Reg.named : Reg → Bool
  | .reserved18 | .reserved1C => false
  | .cmd | .status | .out | .sum | .chk | .acc => true

/-- A line the assembler accepts: every command it stands for is well formed; a raw word always is (R62). -/
def AsmLine.wellFormed : AsmLine → Bool
  | .word _ => true
  | .rd r => r.named
  | l => l.expansion.all AsmCommand.wellFormed

end Sys2Proof
end

