-- ==== Sys2Proof/Machine/Assemble.lean ====
section
/-! DEFINITION. The assembler (30_encoding.md R62, R63): from a line of a host program to the host's accesses (00_scope.md
R12). It is host software; the engine knows nothing of it. -/

namespace Sys2Proof.Machine

/-- The command a mnemonic, a feedback bit and an operand's value stand for. -/
def buildInstr (m : Mnemonic) (p : Bool) (v : Nat) : Instr :=
  match m with
  | .NOP => .nop
  | .INIT => .init (if v = 0 then .bech32 else .bech32m)
  | .POLY => .poly (BitVec.ofNat 5 v)
  | .HRPH => .hrph (BitVec.ofNat 8 v)
  | .HRPL => .hrpl (BitVec.ofNat 8 v)
  | .ENC8 => .enc8 p (BitVec.ofNat 8 v)
  | .ENCFLUSH => .encflush p
  | .DEC5 => .dec5 p (BitVec.ofNat 5 v)
  | .DECEND => .decend
  | .FIN => .fin
  | .VERIFY => .verify

/-- The command a line stands for; none where the assembler refuses it (R62). -/
def assembleCommand (c : AsmCommand) : Option Instr :=
  if c.wellFormed then some (buildInstr c.mnemonic c.suffixP ((c.operand.map Operand.value).getD 0)) else none

/-- The accesses a line stands for: one `MemWrite` to `CMD` per command, one read for `rd` (R12, R62, R63). -/
def assembleLine (l : AsmLine) : Option (List HostEvent) :=
  match l with
  | .word x => some [cmdWrite x]
  | .rd r => if r.named then some [regRead r] else none
  | l => (l.expansion.mapM assembleCommand).map (List.map fun i => cmdWrite (encode i))

/-- The accesses of a whole program, in order (R12). -/
def assemble (p : List AsmLine) : Option (List HostEvent) := (p.mapM assembleLine).map List.flatten

end Sys2Proof.Machine
end

