-- ==== Sys2Proof/Machine/Run.lean ====
section
/-! DEFINITION. Command sequences, for the rules that speak of them (41_polymod.md R72, 42_checksum.md R76 and R77, 43_repack.md
R84 and R85), and what they give out across their OUT values. -/

namespace Sys2Proof.Machine

/-- The groups an encode command's `OUT` gives: `OUT.CNT` of them, `D0` first (10_state.md R23). -/
def outGroups (o : Out) : List Group := ([o.d0, o.d1].take o.cnt.toNat).map fun d => d.setWidth 5

/-- The bytes a decode command's `OUT` gives (R23). -/
def outBytes (o : Out) : List Byte := [o.d0].take o.cnt.toNat

/-- Run commands in order, collecting what each gives out; none if one of them does not answer a next state. -/
def runCollect {α : Type} (given : Out → List α) : List Instr → State → Option (State × List α)
  | [], s => some (s, [])
  | i :: is, s =>
    match exec i s with
    | .next t => (runCollect given is t).map fun r => (r.1, given t.engine.out ++ r.2)
    | .fault _ => none
    | .refused _ => none

/-- Run commands in order. -/
def runAll (is : List Instr) (s : State) : Option State := (runCollect outGroups is s).map Prod.fst

/-- `SEED "p"` (30_encoding.md R63). -/
def seedCommands (p : List Byte) : List Instr := p.map .hrph ++ [.poly 0] ++ p.map .hrpl

/-- `ENCDATA[.P] b0, ..., bk` (R63). -/
def encdataCommands (p : Bool) (bs : List Byte) : List Instr := bs.map (.enc8 p) ++ [.encflush p]

end Sys2Proof.Machine
end

