-- ==== Sys2Proof/Machine/Source.lean ====
section
/-! DEFINITION. The source's whole-payload functions, which the spec says the engine's command sequences compute: polymod
(41_polymod.md R67), expandPrefix (R72), createChecksum and verifyChecksum (42_checksum.md R76, R77), encodeBytes and
decodeToBytes (43_repack.md R84, R85). They are written over bit lists, not over the engine's accumulator (log 13). -/

namespace Sys2Proof.Machine

/-- `polymod(g[0..n-1])`, from "Initialize `chk = 1`" (R67). -/
def polymod (gs : List Group) : Chk := polyFeed 1 gs

/-- `expandPrefix(p)`: the high parts, one zero group, the low parts (R72). -/
def expandPrefix (p : List Byte) : List Group :=
  p.map (fun c : Byte => (c >>> 5).setWidth 5) ++ [0] ++ p.map (fun c : Byte => (c &&& 0x1F).setWidth 5)

/-- The bits of a sequence of words of one width, each most-significant bit first (20_memory.md R41). -/
def streamBits {w : Nat} (xs : List (BitVec w)) : List Bool :=
  xs.flatMap fun x => (List.range w).map fun i => x.getLsbD (w - 1 - i)

/-- The word of width `w` whose bits, most significant first, are these; missing bits are 0 at the end. -/
def packBits (w : Nat) (bs : List Bool) : BitVec w :=
  BitVec.ofNat w ((List.range w).foldl (fun n i => 2 * n + (bs.getD i false).toNat) 0)

/-- Cut a bit list into 5-bit groups, the last one zero-padded (R84). -/
def groupsOfBits : List Bool → List Group
  | b4 :: b3 :: b2 :: b1 :: b0 :: rest => packBits 5 [b4, b3, b2, b1, b0] :: groupsOfBits rest
  | [] => []
  | rest => [packBits 5 rest]

/-- Cut a bit list into 8-bit bytes, dropping what is left over (R85). -/
def bytesOfBits : List Bool → List Byte
  | b7 :: b6 :: b5 :: b4 :: b3 :: b2 :: b1 :: b0 :: rest => packBits 8 [b7, b6, b5, b4, b3, b2, b1, b0] :: bytesOfBits rest
  | _ => []

/-- `encodeBytes(B)`: the bits of `B` MSB-first, cut into 5-bit groups, the last zero-padded (R84). -/
def encodeBytes (bs : List Byte) : List Group := groupsOfBits (streamBits bs)

/-- `decodeToBytes(G)`: the bits of `G` MSB-first, cut into bytes (R85). -/
def decodeToBytes (gs : List Group) : List Byte := bytesOfBits (streamBits gs)

/-- The `5k mod 8` bits left over after the last whole byte (R85). -/
def leftoverBits (gs : List Group) : List Bool := (streamBits gs).drop (8 * (5 * gs.length / 8))

/-- `createChecksum(prefix, payload)` (R76). -/
def createChecksum (v : Variant) (p payload : List Byte) : Chk :=
  polymod (expandPrefix p ++ encodeBytes payload ++ List.replicate 6 0) ^^^ variantConst v

/-- `verifyChecksum(prefix, fullDataGroups)` (R77). -/
def verifyChecksum (v : Variant) (p : List Byte) (full : List Group) : Bool :=
  polymod (expandPrefix p ++ full) == variantConst v

end Sys2Proof.Machine
end

