-- ==== Sys2Proof/Safety.lean ====
section
/-! DEFINITION. What claims call good: the invariant of 10_state.md R21, the record of errors, the acceptance condition of
70_reset_and_hazards.md R106, and the outcomes a safe run has. -/

namespace Sys2Proof.Machine

/-- The repacker's invariant (R21). -/
abbrev Engine.RepackerOk (e : Engine) : Prop :=
  e.acc.toNat < 2 ^ e.nbits.toNat ∧
  (e.mode = .idle → e.nbits.toNat = 0) ∧
  (e.mode = .enc → e.nbits.toNat ≤ 4) ∧
  (e.mode = .dec → e.nbits.toNat ≤ 7)

/-- `OUT` in the ranges of R14 and R23: at most two values, `D1` a group, the unused fields 0. -/
abbrev Out.Ok (o : Out) : Prop :=
  o.cnt.toNat ≤ 2 ∧ o.d1.toNat < 32 ∧ (o.cnt.toNat < 2 → o.d1 = 0) ∧ (o.cnt = 0 → o.d0 = 0)

/-- The error record is consistent (R27, R89): `CAUSE` is 0 exactly when no sticky bit is set, and otherwise names an error
whose sticky bit is set. -/
abbrev Engine.ErrorsOk (e : Engine) : Prop :=
  (e.cause = none ↔ e.errIll = false ∧ e.errSeq = false ∧ e.errPad = false) ∧
  (e.cause = some .illegalCommand → e.errIll = true) ∧
  (e.cause = some .sequenceError → e.errSeq = true) ∧
  (e.cause = some .paddingError → e.errPad = true)

/-- The invariant of the machine. -/
abbrev State.Inv (s : State) : Prop := s.engine.RepackerOk ∧ s.engine.out.Ok ∧ s.engine.ErrorsOk

/-- `STATUS[6:4] = 0`: no error since `INIT` (R106). -/
abbrev Engine.NoError (e : Engine) : Prop := e.errIll = false ∧ e.errSeq = false ∧ e.errPad = false

/-- A decode is accepted (R106): `VOK = 1` and no error. -/
abbrev Engine.Accepted (e : Engine) : Prop := e.vok = true ∧ e.NoError

/-- The command word the next event writes to `CMD`, if it is such a write (20_memory.md R38). -/
def State.nextWord (s : State) : Option Word :=
  match s.pending with
  | .write offset size w :: _ => if offset = 0 ∧ size = 4 then some w else none
  | _ => none

/-- The legal command the next event carries, if it carries one. -/
def State.nextInstr (s : State) : Option Instr :=
  match s.nextWord with
  | some w => match decode w with
    | .ok i => some i
    | .error _ => none
  | none => none

/-- The next event writes an illegal word to `CMD` (30_encoding.md R56). -/
abbrev State.NextIllegal (s : State) : Prop := s.nextWord.isSome = true ∧ s.nextInstr = none

/-- The next event asserts reset. -/
def State.nextReset (s : State) : Bool :=
  match s.pending with
  | .reset :: _ => true
  | _ => false

/-- The next event is a legal `INIT` or a reset, the only two that clear the error record (60_exceptions.md R94). -/
abbrev State.NextStartsAfresh (s : State) : Prop :=
  s.nextReset = true ∨ s.nextInstr = some (.init .bech32) ∨ s.nextInstr = some (.init .bech32m)

/-- When a command is rejected for sequence: exactly the cases of 60_exceptions.md R90. -/
def sequenceRejects (i : Instr) (e : Engine) : Bool :=
  match i with
  | .enc8 _ _ | .encflush _ => e.mode == .dec
  | .dec5 _ _ | .decend => e.mode == .enc
  | .fin => e.mode == .enc && e.nbits != 0
  | .nop | .init _ | .poly _ | .hrph _ | .hrpl _ | .verify => false

/-- When `DECEND` finds bad padding: 60_exceptions.md R91. -/
def paddingBad (e : Engine) : Bool := e.mode != .enc && (decide (5 ≤ e.nbits.toNat) || e.acc != 0)

/-- The next state, where an outcome is one. -/
def nextOf : Result → Option State
  | .next s => some s
  | .fault _ => none
  | .refused _ => none

/-- A step is safe when it neither faults nor is refused. -/
abbrev SafeStep (s : State) : Prop := (nextOf (step s)).isSome = true

end Sys2Proof.Machine
end

