-- ==== Sys2Proof/Certificates/Slice0/Obligations.lean ====
section
/-! DEFINITION. The statements for the provers. Each is read from the numbered rules of spec/ its docstring names.

Three conventions hold throughout. The engine has no memory array (10_state.md R30, 20_memory.md R33), so there is no byte of
memory to frame: a frame speaks of the engine's fields, of the host's pending accesses, of its position and of what its reads
returned. A conclusion of the form `exec i s = .next { s with engine := { s.engine with … } }` is at once the completion, the
result and the frame: every field not listed is unchanged. A result statement whose hypothesis is `s.engine.RepackerOk` rests
on the invariant of R21, which `StepKeepsRepackerInvariant` states. -/

open Sys2Proof Sys2Proof.Machine

/-! ### Encoding (30_encoding.md) -/

/-- R54, R62: words written out from the opcode map, one or more of each family. A sanity statement. -/
def Obligations.DecodedWordsOfEachFamily : Prop :=
  decode 0x00000000 = .ok .nop ∧
  decode 0x10000001 = .ok (.init .bech32m) ∧
  decode 0x2000001F = .ok (.poly 31) ∧
  decode 0x30000061 = .ok (.hrph 0x61) ∧
  decode 0x40000061 = .ok (.hrpl 0x61) ∧
  decode 0x500001A5 = .ok (.enc8 true 0xA5) ∧
  decode 0x60000100 = .ok (.encflush true) ∧
  decode 0x70000115 = .ok (.dec5 true 21) ∧
  decode 0x80000000 = .ok .decend ∧
  decode 0x90000000 = .ok .fin ∧
  decode 0xA0000000 = .ok .verify

/-- R54, R62: every command, with every operand, decodes from its own word. -/
def Obligations.DecodeOfEncodeIsTheInstruction : Prop :=
  ∀ i : Instr, decode (encode i) = .ok i

/-- R54, R60: a word that decodes to a command is that command's only word, so no bit of a legal word is dropped. -/
def Obligations.EncodeOfDecodeIsTheWord : Prop :=
  ∀ (w : Word) (i : Instr), decode w = .ok i → encode i = w

/-- R55: a word is legal exactly when it matches a row of R54, and every legal word has `RSV = 0`, `OP <= 0xA`, `P = 0` unless
`OP` is 0x5, 0x6 or 0x7, and a `D` that meets its form's constraint of R52. -/
def Obligations.LegalWordsAreTheTablesRows : Prop :=
  ∀ w : Word,
    ((∃ i, decode w = .ok i) ↔ ∃ r ∈ opcodeTable, w &&& r.mask = r.pattern) ∧
    ((∃ i, decode w = .ok i) →
      w.extractLsb' 9 19 = 0 ∧
      (w.extractLsb' 28 4).toNat ≤ 0xA ∧
      (w.getLsbD 8 = true → (w.extractLsb' 28 4).toNat ∈ [5, 6, 7]) ∧
      ((w.extractLsb' 28 4).toNat ∈ [0, 6, 8, 9, 10] → w.extractLsb' 0 8 = 0) ∧
      ((w.extractLsb' 28 4).toNat = 1 → w.extractLsb' 1 7 = 0) ∧
      ((w.extractLsb' 28 4).toNat ∈ [2, 7] → w.extractLsb' 5 3 = 0))

/-- R55 read backwards with R52, R53: a word that breaks none of the field constraints is legal. -/
def Obligations.WordsMeetingTheFieldRulesAreLegal : Prop :=
  ∀ w : Word,
    w.extractLsb' 9 19 = 0 →
    (w.extractLsb' 28 4).toNat ≤ 0xA →
    (w.getLsbD 8 = true → (w.extractLsb' 28 4).toNat ∈ [5, 6, 7]) →
    ((w.extractLsb' 28 4).toNat ∈ [0, 6, 8, 9, 10] → w.extractLsb' 0 8 = 0) →
    ((w.extractLsb' 28 4).toNat = 1 → w.extractLsb' 1 7 = 0) →
    ((w.extractLsb' 28 4).toNat ∈ [2, 7] → w.extractLsb' 5 3 = 0) →
    ∃ i, decode w = .ok i ∧ encode i = w

/-- R54: "No word matches two rows." -/
def Obligations.NoWordMatchesTwoRows : Prop :=
  ∀ (w : Word) (r₁ r₂ : Row), r₁ ∈ opcodeTable → r₂ ∈ opcodeTable →
    w &&& r₁.mask = r₁.pattern → w &&& r₂.mask = r₂.pattern → r₁ = r₂

/-- R53, R57: a word with a reserved opcode, or with any `RSV` bit set whatever its opcode, is illegal; and the engine does not
refuse it: a write of it to `CMD` answers a next state with `ERR_ILL` set. -/
def Obligations.ReservedEncodingsAreIllegalNotRefused : Prop :=
  ∀ w : Word, ((w.extractLsb' 28 4).toNat ∈ [0xB, 0xC, 0xD, 0xE, 0xF] ∨ w.extractLsb' 9 19 ≠ 0) →
    (∃ why, decode w = .error why) ∧
    ∀ (s : State) (rest : List HostEvent), s.pending = .write 0 4 w :: rest →
      ∃ t, step s = .next t ∧ t.engine.errIll = true

/-- R62, R52: the assembler emits a word for a command line exactly when the suffix `.P` stands only on `ENC8`, `ENCFLUSH` or
`DEC5`, an operand is there exactly when the form takes one, and its value is legal: below 2 for `INIT`, below 32 for `POLY` and
`DEC5`, below 256 for `HRPH`, `HRPL` and `ENC8`; and the word is that of R62's table: the mnemonic's pattern, bit 8 for the
suffix, and the operand's value. A number stands for itself, a character literal for its code, and `BECH32` and `BECH32M`, on
`INIT` alone, for 0 and 1. No illegal word is emitted. That a character literal of code 128 or above is refused is the model's
inference (log 11, DEDUCED): R62 says only that a literal means its ASCII code. -/
def Obligations.AssemblerEmitsTheTablesWord : Prop :=
  (∀ (c : AsmCommand) (w : Word),
    (∃ i, assembleCommand c = some i ∧ encode i = w) ↔
      (c.suffixP = true → c.mnemonic ∈ [.ENC8, .ENCFLUSH, .DEC5]) ∧
      ((c.mnemonic ∈ [.NOP, .ENCFLUSH, .DECEND, .FIN, .VERIFY] ∧ c.operand = none ∧
          w = c.mnemonic.row.pattern ||| (if c.suffixP then 0x100#32 else 0#32)) ∨
        ∃ n : Nat,
          (c.operand = some (.num n) ∨
            (∃ ch : Char, c.operand = some (.chr ch) ∧ ch.toNat < 128 ∧ n = ch.toNat) ∨
            (c.mnemonic = .INIT ∧ c.operand = some (.variantName .bech32) ∧ n = 0) ∨
            (c.mnemonic = .INIT ∧ c.operand = some (.variantName .bech32m) ∧ n = 1)) ∧
          ((c.mnemonic = .INIT ∧ n < 2) ∨ (c.mnemonic ∈ [.POLY, .DEC5] ∧ n < 32) ∨
            (c.mnemonic ∈ [.HRPH, .HRPL, .ENC8] ∧ n < 256)) ∧
          w = c.mnemonic.row.pattern ||| (if c.suffixP then 0x100#32 else 0#32) ||| BitVec.ofNat 32 n)) ∧
  (∀ (c : AsmCommand) (i : Instr), assembleCommand c = some i → decode (encode i) = .ok i)

/-- R63: each pseudo-instruction expands into the commands shown, in order, each one `MemWrite` to `CMD`, for operand lists of
every length. R63 shows `SEED` with no character; that `POLYS`, `ENCDATA` and `DECDATA` take an empty list too is the model's
choice (log 11, DESIGN CHOICE), and the statement's three clauses about them include it. -/
def Obligations.PseudoInstructionsExpandInOrder : Prop :=
  assembleLine .hrpsep = some [.write 0 4 0x20000000] ∧
  (∀ p : List Byte, assembleLine (.seed (p.map fun c => .num c.toNat)) =
    some (p.map (fun c => .write 0 4 (0x30000000 ||| c.setWidth 32)) ++ [.write 0 4 0x20000000] ++
      p.map (fun c => .write 0 4 (0x40000000 ||| c.setWidth 32)))) ∧
  (∀ gs : List Group, assembleLine (.polys (gs.map fun g => .num g.toNat)) =
    some (gs.map fun g => .write 0 4 (0x20000000 ||| g.setWidth 32))) ∧
  (∀ (p : Bool) (bs : List Byte), assembleLine (.encdata p (bs.map fun b => .num b.toNat)) =
    some (bs.map (fun b => .write 0 4 ((if p then 0x50000100#32 else 0x50000000#32) ||| b.setWidth 32)) ++
      [.write 0 4 (if p then 0x60000100 else 0x60000000)])) ∧
  (∀ (p : Bool) (gs : List Group), assembleLine (.decdata p (gs.map fun g => .num g.toNat)) =
    some (gs.map (fun g => .write 0 4 ((if p then 0x70000100#32 else 0x70000000#32) ||| g.setWidth 32)) ++
      [.write 0 4 0x80000000]))

/-! ### The step and the register window (20_memory.md) -/

/-- R38, R60: a write of a word to `CMD` runs the command the word decodes to, at the state with the host's line taken (the
index of the next line advanced by one, R28; the host's side is the model's own, log 1). -/
def Obligations.StepRunsDecodedCommand : Prop :=
  ∀ (s : State) (rest : List HostEvent) (w : Word) (i : Instr),
    s.pending = .write 0 4 w :: rest → decode w = .ok i →
    step s = exec i { s with pending := rest, position := s.position + 1 }

/-- R87, R60, R88, R89: a write of an illegal word answers the one next state in which `OUT` is 0 and `IllegalCommand` is
recorded; nothing else of the engine changes, so the word is not latched, and a read of `CMD` returns 0. -/
def Obligations.IllegalWordIsRecordedAndNotLatched : Prop :=
  ∀ (s : State) (rest : List HostEvent) (w : Word), s.pending = .write 0 4 w :: rest →
    (∀ r ∈ opcodeTable, w &&& r.mask ≠ r.pattern) →
    step s = .next { s with
      engine := { s.engine with
        out := ⟨0, 0, 0⟩
        errIll := true
        cause := if s.engine.cause = none then some .illegalCommand else s.engine.cause }
      pending := rest
      position := s.position + 1 } ∧
    regWord .cmd s.engine = 0

/-- R100: after reset (`MODE = IDLE`), and whenever no access is pending, the engine waits. The model's reading of 'waits' is a
step that changes nothing (log 2). That nothing is pending at reset is the model's own value (log 1, DESIGN CHOICE), not R100's:
the spec gives the host's list no reset value. -/
def Obligations.EngineWaitsWithoutAnAccess : Prop :=
  (∀ s : State, s.pending = [] → step s = .next s) ∧ State.reset.pending = [] ∧ State.reset.engine.mode = .idle

/-- R34, R36: a 4-byte read at each of the eight offsets returns that register's word and changes nothing of the engine. The
layout of the `STATUS` and `OUT` words is stated by `StatusWordHasTheFieldsOfTheTable` and `OutWordHasItsThreeFields`. That the
index advances for a read, and that returned words are kept newest first, is the model's choice (log 1, DESIGN CHOICE): R28 speaks
of commands only. -/
def Obligations.ReadReturnsTheRegisterOfItsOffset : Prop :=
  ∀ (s : State) (rest : List HostEvent) (off : Int) (v : Word),
    (off, v) ∈ [((0x00 : Int), (0 : Word)), (0x04, statusWord s.engine), (0x08, outWord s.engine.out),
      (0x0C, s.engine.sum.setWidth 32), (0x10, s.engine.chk.setWidth 32), (0x14, s.engine.acc.setWidth 32),
      (0x18, 0), (0x1C, 0)] →
    s.pending = .read off 4 :: rest →
    step s = .next { s with pending := rest, position := s.position + 1, reads := v :: s.reads }

/-- R36: a read of `CMD` returns 0 and has no effect; a read of a reserved offset returns 0; a write to a reserved offset is
ignored. That the index advances for a read and for an ignored write, and where the returned word is kept, is the model's choice
(log 1, DESIGN CHOICE). -/
def Obligations.CmdAndReservedOffsetsReadZero : Prop :=
  ∀ (s : State) (rest : List HostEvent) (off : Int),
    (off ∈ [0x00, 0x18, 0x1C] → s.pending = .read off 4 :: rest →
      step s = .next { s with pending := rest, position := s.position + 1, reads := 0 :: s.reads }) ∧
    (∀ v : Word, off ∈ [0x18, 0x1C] → s.pending = .write off 4 v :: rest →
      step s = .next { s with pending := rest, position := s.position + 1 })

/-- R37: a write to `STATUS`, `OUT`, `SUM`, `CHK` or `ACC` is ignored, and nothing but a `CMD` write or reset changes the
engine. That the index advances for an ignored write is the model's choice (log 1, DESIGN CHOICE). -/
def Obligations.OnlyCmdWritesAndResetChangeTheEngine : Prop :=
  (∀ (s : State) (rest : List HostEvent) (off : Int) (v : Word), off ∈ [0x04, 0x08, 0x0C, 0x10, 0x14] →
    s.pending = .write off 4 v :: rest →
    step s = .next { s with pending := rest, position := s.position + 1 }) ∧
  (∀ s t : State, step s = .next t → t.engine ≠ s.engine →
    ∃ rest, s.pending = .reset :: rest ∨ ∃ w, s.pending = .write 0 4 w :: rest)

/-- R39: a read changes no state of the engine and so not what a later command does; reading twice returns the same word twice;
a write to `CMD` is not idempotent. That returned words are kept in `reads`, newest first, is the model's choice (log 1, DESIGN
CHOICE). -/
def Obligations.ReadsHaveNoSideEffect : Prop :=
  (∀ (s t : State) (off : Int) (size : Nat) (rest : List HostEvent), s.pending = .read off size :: rest →
    step s = .next t → t.engine = s.engine ∧
      ∀ i : Instr, (nextOf (exec i t)).map State.engine = (nextOf (exec i s)).map State.engine) ∧
  (∀ (s t u : State) (off : Int) (size : Nat) (rest : List HostEvent),
    s.pending = .read off size :: .read off size :: rest → step s = .next t → step t = .next u →
    ∃ v, t.reads = v :: s.reads ∧ u.reads = v :: v :: s.reads) ∧
  (∃ (s t u : State) (w : Word) (rest : List HostEvent), s.pending = .write 0 4 w :: .write 0 4 w :: rest ∧
    step s = .next t ∧ step t = .next u ∧ u.engine ≠ t.engine)

/-- R35: only a 4-byte access at `ENGINE_BASE + off`, with `off` one of the eight offsets, is accepted; an access of another
size or at an address that is not 4-byte aligned is refused. Addresses are absolute, and `ENGINE_BASE` is open. -/
def Obligations.OnlyAlignedWordAccessesAreAccepted : Prop :=
  ∀ (s : State) (rest : List HostEvent) (address size : Nat) (ev : HostEvent),
    (ev = readAt address size ∨ ∃ v, ev = writeAt address size v) → s.pending = ev :: rest →
    ((∃ t, step s = .next t) ↔
      size = 4 ∧ ∃ off ∈ [0x00, 0x04, 0x08, 0x0C, 0x10, 0x14, 0x18, 0x1C], address = Config.engineBase + off) ∧
    ((size ≠ 4 ∨ address % 4 ≠ 0) → ∃ why, step s = .refused why)

/-- R33 and the model's choice of log 4: an aligned 4-byte access at an address outside the window, below or above it, is a
fault of its own name. -/
def Obligations.AlignedAccessOutsideTheWindowFaults : Prop :=
  ∀ (s : State) (rest : List HostEvent) (address : Nat) (ev : HostEvent),
    (ev = readAt address 4 ∨ ∃ v, ev = writeAt address 4 v) → s.pending = ev :: rest → address % 4 = 0 →
    (address < Config.engineBase ∨ Config.engineBase + 0x20 ≤ address) →
    step s = .fault .outsideWindow

/-- R28, R44 and log 1: a step that answers a next state serves exactly the oldest pending line, and the index of the next line
advances by one, whatever the line is. -/
def Obligations.EachStepServesOneLineInOrder : Prop :=
  ∀ (s t : State) (ev : HostEvent) (rest : List HostEvent), s.pending = ev :: rest → step s = .next t →
    t.pending = rest ∧ t.position = s.position + 1 ∧
      (t.reads = s.reads ∨ ∃ off size v, ev = .read off size ∧ t.reads = v :: s.reads)

/-! ### Reset (10_state.md R32; 70_reset_and_hazards.md) -/

/-- R32, R99: every field after reset; the same after `INIT 0`; after `INIT 1` the same but `VARIANT = 1`. `INIT` completes in
every state, and leaves the host's side alone. -/
def Obligations.ResetAndInitLeaveTheResetValues : Prop :=
  State.reset.engine =
    { chk := 0x00000001, variant := .bech32, acc := 0, nbits := 0, mode := .idle, sum := 0, out := ⟨0, 0, 0⟩,
      vok := false, errIll := false, errSeq := false, errPad := false, cause := none } ∧
  ∀ s : State,
    exec (.init .bech32) s = .next { s with engine := State.reset.engine } ∧
    exec (.init .bech32m) s = .next { s with engine := { State.reset.engine with variant := .bech32m } }

/-- R98: asserting reset puts every engine field at its reset value; a `CMD` write before it, legal or not, leaves no trace in
the engine. That reset is an event between two accesses is the model's choice (log 5), and so is that it advances the index
(log 1). -/
def Obligations.ResetInputRestoresTheEngine : Prop :=
  (∀ (s : State) (rest : List HostEvent), s.pending = .reset :: rest →
    step s = .next { s with engine := State.reset.engine, pending := rest, position := s.position + 1 }) ∧
  (∀ (s : State) (w : Word) (rest : List HostEvent), s.pending = .write 0 4 w :: .reset :: rest →
    ∃ t u, step s = .next t ∧ step t = .next u ∧ u.engine = State.reset.engine)

/-- R21, R32: the machine after reset meets the invariant, and is a fresh computation without an error. -/
def Obligations.ResetMeetsTheInvariant : Prop :=
  State.reset.Inv ∧ State.reset.engine.NoError ∧ statusWord State.reset.engine = 0

/-! ### The register words (10_state.md R23, R24) -/

/-- R24: every field of the `STATUS` word stands at its bits, and every bit not listed reads 0. -/
def Obligations.StatusWordHasTheFieldsOfTheTable : Prop :=
  ∀ e : Engine,
    (statusWord e).getLsbD 0 = e.vok ∧
    ((statusWord e).getLsbD 1 = true ↔ e.variant = .bech32m) ∧
    (statusWord e).extractLsb' 2 2 = 0 ∧
    (statusWord e).getLsbD 4 = e.errIll ∧
    (statusWord e).getLsbD 5 = e.errSeq ∧
    (statusWord e).getLsbD 6 = e.errPad ∧
    (statusWord e).getLsbD 7 = false ∧
    (statusWord e).extractLsb' 8 4 =
      (match e.cause with
        | none => 0
        | some .illegalCommand => 1
        | some .sequenceError => 2
        | some .paddingError => 3) ∧
    (statusWord e).extractLsb' 12 4 = 0 ∧
    (statusWord e).extractLsb' 16 2 =
      (match e.mode with
        | .idle => 0
        | .enc => 1
        | .dec => 2) ∧
    (statusWord e).extractLsb' 18 2 = 0 ∧
    (statusWord e).extractLsb' 20 4 = e.nbits ∧
    (statusWord e).extractLsb' 24 8 = 0

/-- R23: `OUT = zext_32(OUT.CNT ++ OUT.D1 ++ OUT.D0)`, with `OUT[31:18] = 0`. -/
def Obligations.OutWordHasItsThreeFields : Prop :=
  ∀ o : Out,
    (outWord o).extractLsb' 0 8 = o.d0 ∧ (outWord o).extractLsb' 8 8 = o.d1 ∧
    (outWord o).extractLsb' 16 2 = o.cnt ∧ (outWord o).extractLsb' 18 14 = 0

/-! ### Control, polymod and checksum commands -/

/-- R65: `NOP` completes in every state and does nothing beyond `OUT <- 0`. -/
def Obligations.NopOnlyClearsOut : Prop :=
  ∀ s : State, exec .nop s = .next { s with engine := { s.engine with out := ⟨0, 0, 0⟩ } }

/-- R67: the polymod step is the source's `((chk & 0x1FFFFFF) << 5) XOR v` with `GEN[i]` XORed in for each bit `i` of
`chk >> 25`; and the rule's corner cases and example. -/
def Obligations.PolyStepIsTheSourcesIteration : Prop :=
  (∀ (c : Chk) (v : Group),
    polyStep c v =
      ((c &&& 0x1FFFFFF) <<< 5) ^^^ v.setWidth 30 ^^^
        (if (c >>> 25).getLsbD 0 then 0x3b6a57b2#30 else 0#30) ^^^
        (if (c >>> 25).getLsbD 1 then 0x26508e6d#30 else 0#30) ^^^
        (if (c >>> 25).getLsbD 2 then 0x1ea119fa#30 else 0#30) ^^^
        (if (c >>> 25).getLsbD 3 then 0x3d4233dd#30 else 0#30) ^^^
        (if (c >>> 25).getLsbD 4 then 0x2a1462b3#30 else 0#30)) ∧
  (∀ (c : Chk) (v : Group), c.toNat < 2 ^ 25 → (polyStep c v).toNat = c.toNat * 32 + v.toNat) ∧
  (∀ k : Fin 5, polyStep (BitVec.ofNat 30 (2 ^ (25 + k.val))) 0 = gen k) ∧
  polyStep 0x3FFFFFFF 0 = 0x2b326eab

/-- R67: "`PolyStep` is linear over GF(2) in the pair `(c, v)`". -/
def Obligations.PolyStepIsLinear : Prop :=
  ∀ (c₁ c₂ : Chk) (v₁ v₂ : Group), polyStep (c₁ ^^^ c₂) (v₁ ^^^ v₂) = polyStep c₁ v₁ ^^^ polyStep c₂ v₂

/-- R77's second step: feeding six groups into an accumulator of 0 gives exactly their concatenation, the first most
significant. -/
def Obligations.SixGroupsIntoZeroConcatenate : Prop :=
  ∀ g₀ g₁ g₂ g₃ g₄ g₅ : Group,
    polyFeed 0 [g₀, g₁, g₂, g₃, g₄, g₅] = (g₀ ++ g₁ ++ g₂ ++ g₃ ++ g₄ ++ g₅ : BitVec (5 + 5 + 5 + 5 + 5 + 5))

/-- R68, R69, R70, R71: `POLY`, `HRPH` and `HRPL` complete in every state, for every operand, feed the group itself, the high
three bits of the character and its low five bits, and change nothing else but `OUT <- 0`. -/
def Obligations.FeedCommandsStepTheAccumulatorOnly : Prop :=
  ∀ s : State,
    (∀ g : Group, exec (.poly g) s =
      .next { s with engine := { s.engine with chk := polyStep s.engine.chk g, out := ⟨0, 0, 0⟩ } }) ∧
    (∀ c : Byte, exec (.hrph c) s =
      .next { s with engine := { s.engine with
        chk := polyStep s.engine.chk (BitVec.ofNat 5 (c.toNat / 32)), out := ⟨0, 0, 0⟩ } }) ∧
    (∀ c : Byte, exec (.hrpl c) s =
      .next { s with engine := { s.engine with
        chk := polyStep s.engine.chk (BitVec.ofNat 5 (c.toNat % 32)), out := ⟨0, 0, 0⟩ } })

/-- R73: unless the encoder holds unflushed bits, `FIN` completes: `CHK` after six zero groups, `SUM` that value XOR the
variant's constant, nothing else changed but `OUT <- 0`. -/
def Obligations.FinCreatesTheChecksum : Prop :=
  ∀ s : State, ¬(s.engine.mode = .enc ∧ s.engine.nbits ≠ 0) →
    ∃ c : Chk,
      c = polyStep (polyStep (polyStep (polyStep (polyStep (polyStep s.engine.chk 0) 0) 0) 0) 0) 0 ∧
      exec .fin s = .next { s with engine := { s.engine with
        chk := c
        sum := c ^^^ (match s.engine.variant with
          | .bech32 => 0x00000001#30
          | .bech32m => 0x2bc830a3#30)
        out := ⟨0, 0, 0⟩ } }

/-- R74, R42: the six checksum groups, most significant first, are the 30 bits of `SUM` in order; and they are the first six
5-bit groups of `SUM` left-shifted by 2 in 32 bits, as the source says. -/
def Obligations.ChecksumGroupsAreSumMsbFirst : Prop :=
  ∀ sum : Chk,
    (checksumGroup sum 0 ++ checksumGroup sum 1 ++ checksumGroup sum 2 ++ checksumGroup sum 3 ++ checksumGroup sum 4 ++
      checksumGroup sum 5 : BitVec (5 + 5 + 5 + 5 + 5 + 5)) = sum ∧
    (checksumGroups sum).length = 6 ∧
    ∀ j : Fin 6, (checksumGroups sum)[j.val]? = some (((sum.setWidth 32 : BitVec 32) <<< 2).extractLsb' (27 - 5 * j.val) 5)

/-- R75: `VERIFY` completes in every state, writes `VOK` alone, and a mismatch sets no error bit. -/
def Obligations.VerifyWritesVokOnly : Prop :=
  ∀ s : State, exec .verify s = .next { s with engine := { s.engine with
    vok := decide (s.engine.chk = (match s.engine.variant with
      | .bech32 => 0x00000001#30
      | .bech32m => 0x2bc830a3#30))
    out := ⟨0, 0, 0⟩ } }

/-! ### The repacker (43_repack.md) -/

/-- R79: in every state the machine can hold in which the repacker does not decode, `ENC8` completes. The held bits followed by
the byte are the groups given out followed by the bits still held, most significant first; one group for each five bits; with
`P` the groups are fed in order. Nothing else changes. -/
def Obligations.Enc8GivesOutEveryCompleteGroup : Prop :=
  ∀ (p : Bool) (b : Byte) (s : State), s.engine.RepackerOk → s.engine.mode ≠ .dec →
    ∃ t : State, exec (.enc8 p b) s = .next t ∧
      t.engine.out.cnt.toNat = (s.engine.nbits.toNat + 8) / 5 ∧
      t.engine.nbits.toNat = (s.engine.nbits.toNat + 8) % 5 ∧
      t.engine.acc.toNat < 2 ^ t.engine.nbits.toNat ∧
      t.engine.out.d0.toNat < 32 ∧ t.engine.out.d1.toNat < 32 ∧
      (t.engine.out.cnt = 1 → t.engine.out.d1 = 0 ∧
        s.engine.acc.toNat * 256 + b.toNat = t.engine.out.d0.toNat * 2 ^ t.engine.nbits.toNat + t.engine.acc.toNat) ∧
      (t.engine.out.cnt = 2 →
        s.engine.acc.toNat * 256 + b.toNat =
          (t.engine.out.d0.toNat * 32 + t.engine.out.d1.toNat) * 2 ^ t.engine.nbits.toNat + t.engine.acc.toNat) ∧
      t.engine.chk =
        (if p = false then s.engine.chk
         else if t.engine.out.cnt = 1 then polyStep s.engine.chk (BitVec.ofNat 5 t.engine.out.d0.toNat)
         else polyStep (polyStep s.engine.chk (BitVec.ofNat 5 t.engine.out.d0.toNat))
           (BitVec.ofNat 5 t.engine.out.d1.toNat)) ∧
      t = { s with engine := { s.engine with
        chk := t.engine.chk, acc := t.engine.acc, nbits := t.engine.nbits, mode := .enc, out := t.engine.out } }

/-- R80: in every state the machine can hold in which the repacker does not decode, `ENCFLUSH` completes: the held bits, padded
with zero bits on the right to five, are given out (and with `P` fed) if there are any; the repacker is emptied. -/
def Obligations.EncflushPadsTheFinalGroup : Prop :=
  ∀ (p : Bool) (s : State), s.engine.RepackerOk → s.engine.mode ≠ .dec →
    ∃ (g : Group) (o : Out) (c : Chk),
      g.toNat = s.engine.acc.toNat * 2 ^ (5 - s.engine.nbits.toNat) % 32 ∧
      (s.engine.nbits = 0 → o = ⟨0, 0, 0⟩ ∧ c = s.engine.chk) ∧
      (s.engine.nbits ≠ 0 →
        o = ⟨g.setWidth 8, 0, 1⟩ ∧ c = if p then polyStep s.engine.chk g else s.engine.chk) ∧
      exec (.encflush p) s = .next { s with engine := { s.engine with
        chk := c, acc := 0, nbits := 0, mode := .idle, out := o } }

/-- R81: in every state the machine can hold in which the repacker does not encode, `DEC5` completes. The held bits followed by
the group are the byte given out, if eight bits are there, followed by the bits still held; with `P` the group taken in is
fed. Nothing else changes. -/
def Obligations.Dec5GivesOutACompleteByte : Prop :=
  ∀ (p : Bool) (g : Group) (s : State), s.engine.RepackerOk → s.engine.mode ≠ .enc →
    ∃ (a : Acc) (n : BitVec 4) (o : Out),
      (3 ≤ s.engine.nbits.toNat → n.toNat = s.engine.nbits.toNat - 3 ∧ o.cnt = 1 ∧ o.d1 = 0 ∧
        s.engine.acc.toNat * 32 + g.toNat = o.d0.toNat * 2 ^ n.toNat + a.toNat) ∧
      (s.engine.nbits.toNat < 3 → n.toNat = s.engine.nbits.toNat + 5 ∧ o = ⟨0, 0, 0⟩ ∧
        a.toNat = s.engine.acc.toNat * 32 + g.toNat) ∧
      a.toNat < 2 ^ n.toNat ∧
      exec (.dec5 p g) s = .next { s with engine := { s.engine with
        chk := if p then polyStep s.engine.chk g else s.engine.chk
        acc := a, nbits := n, mode := .dec, out := o } }

/-- R82, R89: in every state in which the repacker does not encode, `DECEND` completes: the repacker is emptied, and
`PaddingError` is recorded exactly when five or more bits are left over or one of them is not zero. -/
def Obligations.DecendChecksThePadding : Prop :=
  ∀ s : State, s.engine.mode ≠ .enc →
    exec .decend s = .next { s with engine := { s.engine with
      acc := 0, nbits := 0, mode := .idle, out := ⟨0, 0, 0⟩
      errPad := s.engine.errPad || decide (5 ≤ s.engine.nbits.toNat ∨ s.engine.acc.toNat ≠ 0)
      cause := if s.engine.cause = none ∧ (5 ≤ s.engine.nbits.toNat ∨ s.engine.acc.toNat ≠ 0) then some .paddingError
        else s.engine.cause } }

/-- R78, R20: the direction after each command: an accepted `ENC8` and `DEC5` fix it, `ENCFLUSH`, `DECEND` and `INIT` release
it, and no other command writes it or the bits held. -/
def Obligations.RepackerDirectionFollowsTheCommands : Prop :=
  ∀ (i : Instr) (s t : State), exec i s = .next t → sequenceRejects i s.engine = false →
    t.engine.mode = (match i with
      | .enc8 _ _ => .enc
      | .dec5 _ _ => .dec
      | .encflush _ | .decend | .init _ => .idle
      | .nop | .poly _ | .hrph _ | .hrpl _ | .fin | .verify => s.engine.mode) ∧
    (i.mnemonic ∉ [.ENC8, .DEC5, .ENCFLUSH, .DECEND, .INIT] →
      t.engine.acc = s.engine.acc ∧ t.engine.nbits = s.engine.nbits)

/-- R83: with `P = 1` every group that passes through the repacker is fed exactly once, in stream order: on encode the groups
given out, on decode the group taken in; with `P = 0` `CHK` is not touched; and `P` changes nothing else. -/
def Obligations.FeedbackFeedsEachGroupExactlyOnce : Prop :=
  ∀ s : State, s.engine.RepackerOk →
    (∀ (b : Byte) (t : State), exec (.enc8 true b) s = .next t →
      t.engine.chk = polyFeed s.engine.chk (outGroups t.engine.out) ∧
      exec (.enc8 false b) s = .next { t with engine := { t.engine with chk := s.engine.chk } }) ∧
    (∀ t : State, exec (.encflush true) s = .next t →
      t.engine.chk = polyFeed s.engine.chk (outGroups t.engine.out) ∧
      exec (.encflush false) s = .next { t with engine := { t.engine with chk := s.engine.chk } }) ∧
    (∀ (g : Group) (t : State), exec (.dec5 true g) s = .next t → s.engine.mode ≠ .enc →
      t.engine.chk = polyStep s.engine.chk g ∧
      exec (.dec5 false g) s = .next { t with engine := { t.engine with chk := s.engine.chk } })

/-! ### Whole-machine rules on who writes what -/

/-- R17: `VARIANT` is written only by `INIT` and reset, and it selects the constant that `FIN` and `VERIFY` use. -/
def Obligations.VariantIsWrittenOnlyByInitAndReset : Prop :=
  (∀ s t : State, step s = .next t → t.engine.variant ≠ s.engine.variant →
    s.nextReset = true ∨ s.nextInstr = some (.init t.engine.variant)) ∧
  (∀ s t : State, exec .fin s = .next t → ¬(s.engine.mode = .enc ∧ s.engine.nbits ≠ 0) →
    t.engine.sum = t.engine.chk ^^^ variantConst s.engine.variant) ∧
  (∀ s t : State, exec .verify s = .next t →
    (t.engine.vok = true ↔ s.engine.chk = variantConst s.engine.variant)) ∧
  variantConst .bech32 = 0x00000001 ∧ variantConst .bech32m = 0x2bc830a3

/-- R22: `SUM` holds the checksum the last `FIN` produced; `INIT` and reset clear it; nothing else writes it. -/
def Obligations.SumIsWrittenOnlyByFinInitAndReset : Prop :=
  ∀ s t : State, step s = .next t →
    t.engine.sum =
      (if s.nextReset then 0
       else match s.nextInstr with
        | some (.init _) => 0
        | some .fin =>
          if sequenceRejects .fin s.engine then s.engine.sum
          else polyFeed s.engine.chk [0, 0, 0, 0, 0, 0] ^^^ variantConst s.engine.variant
        | _ => s.engine.sum)

/-- R25: `VOK` is written only by `VERIFY`, and by `INIT` and reset, which clear it; a 0 after `VERIFY` sets no error bit. -/
def Obligations.VokIsWrittenOnlyByVerifyInitAndReset : Prop :=
  ∀ s t : State, step s = .next t →
    t.engine.vok =
      (if s.nextReset then false
       else match s.nextInstr with
        | some (.init _) => false
        | some .verify => decide (s.engine.chk = variantConst s.engine.variant)
        | _ => s.engine.vok) ∧
    (s.nextInstr = some .verify →
      t.engine.errIll = s.engine.errIll ∧ t.engine.errSeq = s.engine.errSeq ∧ t.engine.errPad = s.engine.errPad ∧
      t.engine.cause = s.engine.cause)

/-- R23: every command writes `OUT`, rejected ones too: `ENC8` gives out one or two groups, `ENCFLUSH` none or one, `DEC5` none
or one byte, every other and every rejected command nothing; the unused fields are 0. -/
def Obligations.OutHoldsTheLastCommandsOutput : Prop :=
  (∀ (i : Instr) (s t : State), s.engine.RepackerOk → exec i s = .next t →
    (t.engine.out.cnt.toNat < 2 → t.engine.out.d1 = 0) ∧ (t.engine.out.cnt = 0 → t.engine.out.d0 = 0) ∧
    (sequenceRejects i s.engine = true → t.engine.out = ⟨0, 0, 0⟩) ∧
    (sequenceRejects i s.engine = false → match i with
      | .enc8 _ _ => t.engine.out.cnt = 1 ∨ t.engine.out.cnt = 2
      | .encflush _ | .dec5 _ _ => t.engine.out.cnt = 0 ∨ t.engine.out.cnt = 1
      | .nop | .init _ | .poly _ | .hrph _ | .hrpl _ | .decend | .fin | .verify => t.engine.out = ⟨0, 0, 0⟩)) ∧
  (∀ s t : State, s.NextIllegal → step s = .next t → t.engine.out = ⟨0, 0, 0⟩)

/-- R29, R31, R75: no command reads the error bits, `CAUSE`, `VOK`, `SUM` or `OUT`. Two engines that agree on `CHK`, `VARIANT`,
`ACC`, `NBITS` and `MODE` agree on them and on `OUT` after any command. They agree on `VOK` after `VERIFY` and on `SUM` after an
accepted `FIN` (after `INIT` on both), and elsewhere keep whatever agreement they had. A command other than `INIT` raises the same
error, or none, in both: one `k` says what is added to both records (R89); `INIT` leaves the two engines equal. -/
def Obligations.CommandsIgnoreErrorsAndResults : Prop :=
  ∀ (i : Instr) (s₁ s₂ t₁ t₂ : State),
    s₁.engine.chk = s₂.engine.chk → s₁.engine.variant = s₂.engine.variant → s₁.engine.acc = s₂.engine.acc →
    s₁.engine.nbits = s₂.engine.nbits → s₁.engine.mode = s₂.engine.mode →
    exec i s₁ = .next t₁ → exec i s₂ = .next t₂ →
    (t₁.engine.chk = t₂.engine.chk ∧ t₁.engine.variant = t₂.engine.variant ∧ t₁.engine.acc = t₂.engine.acc ∧
      t₁.engine.nbits = t₂.engine.nbits ∧ t₁.engine.mode = t₂.engine.mode ∧ t₁.engine.out = t₂.engine.out) ∧
    (i = .verify ∨ s₁.engine.vok = s₂.engine.vok → t₁.engine.vok = t₂.engine.vok) ∧
    ((i = .fin ∧ ¬(s₁.engine.mode = .enc ∧ s₁.engine.nbits ≠ 0)) ∨ s₁.engine.sum = s₂.engine.sum →
      t₁.engine.sum = t₂.engine.sum) ∧
    ((∃ v, i = .init v) → t₁.engine = t₂.engine) ∧
    ((∀ v, i ≠ .init v) → ∃ k : Option EngineError,
      ∀ s t : State, (s = s₁ ∧ t = t₁) ∨ (s = s₂ ∧ t = t₂) →
        t.engine.errIll = (s.engine.errIll || decide (k = some .illegalCommand)) ∧
        t.engine.errSeq = (s.engine.errSeq || decide (k = some .sequenceError)) ∧
        t.engine.errPad = (s.engine.errPad || decide (k = some .paddingError)) ∧
        t.engine.cause = (if s.engine.cause = none then k else s.engine.cause))

/-! ### Errors (60_exceptions.md) -/

/-- R89: what raising each error writes, and that it writes nothing else. -/
def Obligations.RaisingAnErrorRecordsIt : Prop :=
  ∀ e : Engine,
    e.raise .illegalCommand =
      { e with errIll := true, cause := if e.cause = none then some .illegalCommand else e.cause } ∧
    e.raise .sequenceError =
      { e with errSeq := true, cause := if e.cause = none then some .sequenceError else e.cause } ∧
    e.raise .paddingError =
      { e with errPad := true, cause := if e.cause = none then some .paddingError else e.cause }

/-- R90: `SequenceError` is raised in exactly these cases, and in no other: by `ENC8` and `ENCFLUSH` with `MODE = DEC`, by `DEC5`
and `DECEND` with `MODE = ENC`, by `FIN` with `MODE = ENC` and `NBITS != 0`. -/
def Obligations.SequenceErrorInExactlyTheseCases : Prop :=
  ∀ s t : State, step s = .next t → s.engine.errSeq = false →
    (t.engine.errSeq = true ↔
      ((∃ p b, s.nextInstr = some (.enc8 p b)) ∨ (∃ p, s.nextInstr = some (.encflush p))) ∧ s.engine.mode = .dec ∨
      ((∃ p g, s.nextInstr = some (.dec5 p g)) ∨ s.nextInstr = some .decend) ∧ s.engine.mode = .enc ∨
      s.nextInstr = some .fin ∧ s.engine.mode = .enc ∧ s.engine.nbits ≠ 0)

/-- R91: `PaddingError` is raised only by `DECEND`, when `MODE != ENC` and either `NBITS >= 5` or `ACC != 0`. -/
def Obligations.PaddingErrorOnlyByDecend : Prop :=
  ∀ s t : State, step s = .next t → s.engine.errPad = false →
    (t.engine.errPad = true ↔
      s.nextInstr = some .decend ∧ s.engine.mode ≠ .enc ∧ (5 ≤ s.engine.nbits.toNat ∨ s.engine.acc ≠ 0))

/-- R56, R87: `IllegalCommand` is raised by a write of a word that matches no row to `CMD`, and by nothing else. -/
def Obligations.IllegalCommandOnlyByIllegalWords : Prop :=
  ∀ s t : State, step s = .next t → s.engine.errIll = false →
    (t.engine.errIll = true ↔
      ∃ w rest, s.pending = .write 0 4 w :: rest ∧ ∀ r ∈ opcodeTable, w &&& r.mask ≠ r.pattern)

/-- R88: a rejected command has no effect except `OUT <- 0` and the record of its error (R89); `PaddingError` does not reject:
`DECEND` completes all its pseudocode and the error is recorded as well. -/
def Obligations.RejectedCommandsHaveNoOtherEffect : Prop :=
  (∀ (i : Instr) (s : State), sequenceRejects i s.engine = true →
    exec i s = .next { s with engine := { s.engine with
      out := ⟨0, 0, 0⟩
      errSeq := true
      cause := if s.engine.cause = none then some .sequenceError else s.engine.cause } }) ∧
  (∀ s t : State, s.NextIllegal → step s = .next t →
    t.engine = { s.engine with
      out := ⟨0, 0, 0⟩
      errIll := true
      cause := if s.engine.cause = none then some .illegalCommand else s.engine.cause }) ∧
  (∀ s : State, paddingBad s.engine = true →
    exec .decend s = .next { s with engine := { s.engine with
      acc := 0, nbits := 0, mode := .idle
      out := ⟨0, 0, 0⟩
      errPad := true
      cause := if s.engine.cause = none then some .paddingError else s.engine.cause } })

/-- R92: at most one error is raised per command: encoding first, then the repacker's direction, then padding. -/
def Obligations.AtMostOneErrorPerCommand : Prop :=
  ∀ s t : State, step s = .next t → ¬s.NextStartsAfresh →
    (s.NextIllegal → t.engine.errIll = true ∧ t.engine.errSeq = s.engine.errSeq ∧ t.engine.errPad = s.engine.errPad) ∧
    (∀ i, s.nextInstr = some i → sequenceRejects i s.engine = true →
      t.engine.errSeq = true ∧ t.engine.errIll = s.engine.errIll ∧ t.engine.errPad = s.engine.errPad) ∧
    (s.nextInstr = some .decend → sequenceRejects .decend s.engine = false → paddingBad s.engine = true →
      t.engine.errPad = true ∧ t.engine.errIll = s.engine.errIll ∧ t.engine.errSeq = s.engine.errSeq) ∧
    (∀ i, s.nextInstr = some i → sequenceRejects i s.engine = false →
      (i = .decend → paddingBad s.engine = false) →
      t.engine.errIll = s.engine.errIll ∧ t.engine.errSeq = s.engine.errSeq ∧ t.engine.errPad = s.engine.errPad ∧
        t.engine.cause = s.engine.cause)

/-- R26: the three error bits are sticky: a bit that is set stays 1 unless the step is a legal `INIT` or a reset, and after
those it is 0. -/
def Obligations.ErrorBitsAreSticky : Prop :=
  ∀ s t : State, step s = .next t →
    (¬s.NextStartsAfresh →
      (s.engine.errIll = true → t.engine.errIll = true) ∧ (s.engine.errSeq = true → t.engine.errSeq = true) ∧
      (s.engine.errPad = true → t.engine.errPad = true)) ∧
    (s.NextStartsAfresh → t.engine.NoError)

/-- R27: `CAUSE` holds the first error since the last `INIT` or reset: while it is nonzero it does not change, and a later error
(an illegal word, a rejection for sequence, bad padding) still sets its sticky bit; when it is 0 it takes the code of the error
whose bit the step sets. -/
def Obligations.CauseHoldsTheFirstError : Prop :=
  ∀ s t : State, s.engine.ErrorsOk → step s = .next t → ¬s.NextStartsAfresh →
    (s.engine.cause ≠ none →
      t.engine.cause = s.engine.cause ∧
      (s.NextIllegal → t.engine.errIll = true) ∧
      (∀ i, s.nextInstr = some i → sequenceRejects i s.engine = true → t.engine.errSeq = true) ∧
      (s.nextInstr = some .decend → paddingBad s.engine = true → t.engine.errPad = true)) ∧
    (s.engine.cause = none →
      (t.engine.cause = some .illegalCommand ↔ t.engine.errIll = true) ∧
      (t.engine.cause = some .sequenceError ↔ t.engine.errSeq = true) ∧
      (t.engine.cause = some .paddingError ↔ t.engine.errPad = true))

/-! ### Invariants -/

/-- R21: "The following invariant holds after reset and after every command": `ACC < 2^NBITS`, `MODE = IDLE` implies `NBITS = 0`,
`MODE = ENC` implies `NBITS <= 4`, `MODE = DEC` implies `NBITS <= 7`; a rejected command changes none of these fields. -/
def Obligations.StepKeepsRepackerInvariant : Prop :=
  State.reset.engine.RepackerOk ∧
  (∀ s t : State, s.engine.RepackerOk → step s = .next t → t.engine.RepackerOk) ∧
  (∀ s t : State, step s = .next t →
    (s.NextIllegal ∨ ∃ i, s.nextInstr = some i ∧ sequenceRejects i s.engine = true) →
    t.engine.acc = s.engine.acc ∧ t.engine.nbits = s.engine.nbits ∧ t.engine.mode = s.engine.mode)

/-- R14, R23, R27, R86: every step keeps `OUT` in its ranges and the error record consistent, in states that meet the whole
invariant. -/
def Obligations.StepKeepsOutputAndErrorRecord : Prop :=
  ∀ s t : State, s.Inv → step s = .next t → t.Inv

/-! ### Command sequences against the source's functions -/

/-- R72: `INIT v` and `SEED "p"`, from any state, leave `CHK` at the polymod of the prefix expansion, for every prefix (the empty
one too), and everything else as `INIT v` leaves it. -/
def Obligations.SeedingComputesTheExpandedPrefix : Prop :=
  ∀ (v : Variant) (p : List Byte) (s : State),
    runAll (.init v :: seedCommands p) s = some { s with engine := { State.reset.engine with
      variant := v, chk := polymod (expandPrefix p) } }

/-- R84: from an idle repacker, `ENCDATA[.P] B` gives out, in order, exactly the groups of the source's `encodeBytes(B)`,
`ceil(8m/5)` of them, and with `.P` feeds them to `CHK` in that order. -/
def Obligations.EncodingGivesTheSourcesGroups : Prop :=
  ∀ (p : Bool) (bs : List Byte) (s : State), s.engine.RepackerOk → s.engine.mode = .idle →
    ∃ t : State, runCollect outGroups (encdataCommands p bs) s = some (t, encodeBytes bs) ∧
      (encodeBytes bs).length = (8 * bs.length + 4) / 5 ∧
      t.engine.chk = (if p then polyFeed s.engine.chk (encodeBytes bs) else s.engine.chk) ∧
      t.engine.mode = .idle ∧ t.engine.nbits = 0

/-- R85: from an idle repacker, `DEC5[.P]` of each group gives out, in order, the `floor(5k/8)` bytes of `decodeToBytes`; a
following `DECEND` raises `PaddingError` exactly when the leftover bits are not all zero or number 5 or more; and what R84
encodes comes back the same, with no `PaddingError`. -/
def Obligations.DecodingGivesTheSourcesBytes : Prop :=
  (∀ (p : Bool) (gs : List Group) (s : State), s.engine.RepackerOk → s.engine.mode = .idle →
    ∃ t u : State, runCollect outBytes (gs.map (.dec5 p)) s = some (t, decodeToBytes gs) ∧
      (decodeToBytes gs).length = 5 * gs.length / 8 ∧
      exec .decend t = .next u ∧
      (s.engine.errPad = false →
        (u.engine.errPad = true ↔ true ∈ leftoverBits gs ∨ 5 ≤ (leftoverBits gs).length))) ∧
  (∀ bs : List Byte,
    decodeToBytes (encodeBytes bs) = bs ∧
    true ∉ leftoverBits (encodeBytes bs) ∧ (leftoverBits (encodeBytes bs)).length < 5)

/-- R76: `INIT v`, `SEED "p"`, `ENCDATA.P payload` and `FIN`, from any state, leave the source's `createChecksum(p, payload)` in
`SUM`, with no error. -/
def Obligations.EncodeSequenceCreatesTheChecksum : Prop :=
  ∀ (v : Variant) (p payload : List Byte) (s : State),
    ∃ t : State, runAll (.init v :: seedCommands p ++ encdataCommands true payload ++ [.fin]) s = some t ∧
      t.engine.sum = createChecksum v p payload ∧ t.engine.NoError

/-- R77: `INIT v`, `SEED "p"`, `DEC5.P` for every data group, `POLY` for each of the six checksum groups and `VERIFY`, from any
state, leave the source's `verifyChecksum` in `VOK`, with no error; `DECEND` before `VERIFY` changes `VOK` no more than after it;
and the checksum R76 computes verifies. -/
def Obligations.DecodeSequenceVerifiesTheChecksum : Prop :=
  (∀ (v : Variant) (p : List Byte) (data : List Group) (chks : List Group) (s : State), chks.length = 6 →
    ∃ t u w : State,
      runAll (.init v :: seedCommands p ++ data.map (.dec5 true) ++ chks.map .poly ++ [.verify]) s = some t ∧
      t.engine.vok = verifyChecksum v p (data ++ chks) ∧ t.engine.NoError ∧
      exec .decend t = .next u ∧ u.engine.vok = t.engine.vok ∧
      runAll (.init v :: seedCommands p ++ data.map (.dec5 true) ++ chks.map .poly ++ [.decend, .verify]) s = some w ∧
      w.engine.vok = t.engine.vok) ∧
  (∀ (v : Variant) (p payload : List Byte),
    verifyChecksum v p (encodeBytes payload ++ checksumGroups (createChecksum v p payload)) = true)

/-- R106, R101 with R77, R85: after the whole decode sequence, from any state, the engine accepts (`VOK = 1` and no error since
`INIT`) exactly when the source's `verifyChecksum` holds and the data groups' leftover bits number fewer than five and are all
zero. -/
def Obligations.DecodeAcceptsExactlyValidGroups : Prop :=
  ∀ (v : Variant) (p : List Byte) (data chks : List Group) (s : State), chks.length = 6 →
    ∃ t : State,
      runAll (.init v :: seedCommands p ++ data.map (.dec5 true) ++ chks.map .poly ++ [.verify, .decend]) s = some t ∧
      (t.engine.Accepted ↔
        verifyChecksum v p (data ++ chks) = true ∧ (leftoverBits data).length < 5 ∧ true ∉ leftoverBits data)
end

