-- ==== Sys2Proof/Laws/State.lean ====
section
/-! SUPPORT. One lemma per field per update of the state, so that no proof unfolds a record update. -/

namespace Sys2Proof.Machine

/-! ### `Engine.clearOut` -/

@[simp] theorem Engine.clearOut_chk (e : Engine) : e.clearOut.chk = e.chk := rfl
@[simp] theorem Engine.clearOut_variant (e : Engine) : e.clearOut.variant = e.variant := rfl
@[simp] theorem Engine.clearOut_acc (e : Engine) : e.clearOut.acc = e.acc := rfl
@[simp] theorem Engine.clearOut_nbits (e : Engine) : e.clearOut.nbits = e.nbits := rfl
@[simp] theorem Engine.clearOut_mode (e : Engine) : e.clearOut.mode = e.mode := rfl
@[simp] theorem Engine.clearOut_sum (e : Engine) : e.clearOut.sum = e.sum := rfl
@[simp] theorem Engine.clearOut_out (e : Engine) : e.clearOut.out = ⟨0, 0, 0⟩ := rfl
@[simp] theorem Engine.clearOut_vok (e : Engine) : e.clearOut.vok = e.vok := rfl
@[simp] theorem Engine.clearOut_errIll (e : Engine) : e.clearOut.errIll = e.errIll := rfl
@[simp] theorem Engine.clearOut_errSeq (e : Engine) : e.clearOut.errSeq = e.errSeq := rfl
@[simp] theorem Engine.clearOut_errPad (e : Engine) : e.clearOut.errPad = e.errPad := rfl
@[simp] theorem Engine.clearOut_cause (e : Engine) : e.clearOut.cause = e.cause := rfl

/-! ### `Engine.give` -/

@[simp] theorem Engine.give_chk (o : Out) (e : Engine) : (e.give o).chk = e.chk := rfl
@[simp] theorem Engine.give_variant (o : Out) (e : Engine) : (e.give o).variant = e.variant := rfl
@[simp] theorem Engine.give_acc (o : Out) (e : Engine) : (e.give o).acc = e.acc := rfl
@[simp] theorem Engine.give_nbits (o : Out) (e : Engine) : (e.give o).nbits = e.nbits := rfl
@[simp] theorem Engine.give_mode (o : Out) (e : Engine) : (e.give o).mode = e.mode := rfl
@[simp] theorem Engine.give_sum (o : Out) (e : Engine) : (e.give o).sum = e.sum := rfl
@[simp] theorem Engine.give_out (o : Out) (e : Engine) : (e.give o).out = o := rfl
@[simp] theorem Engine.give_vok (o : Out) (e : Engine) : (e.give o).vok = e.vok := rfl
@[simp] theorem Engine.give_errIll (o : Out) (e : Engine) : (e.give o).errIll = e.errIll := rfl
@[simp] theorem Engine.give_errSeq (o : Out) (e : Engine) : (e.give o).errSeq = e.errSeq := rfl
@[simp] theorem Engine.give_errPad (o : Out) (e : Engine) : (e.give o).errPad = e.errPad := rfl
@[simp] theorem Engine.give_cause (o : Out) (e : Engine) : (e.give o).cause = e.cause := rfl

/-! ### `Engine.hold` -/

@[simp] theorem Engine.hold_chk (m : Mode) (a : Acc) (n : Nat) (e : Engine) : (e.hold m a n).chk = e.chk := rfl
@[simp] theorem Engine.hold_variant (m : Mode) (a : Acc) (n : Nat) (e : Engine) : (e.hold m a n).variant = e.variant := rfl
@[simp] theorem Engine.hold_acc (m : Mode) (a : Acc) (n : Nat) (e : Engine) : (e.hold m a n).acc = lowBits a n := rfl
@[simp] theorem Engine.hold_nbits (m : Mode) (a : Acc) (n : Nat) (e : Engine) : (e.hold m a n).nbits = BitVec.ofNat 4 n := rfl
@[simp] theorem Engine.hold_mode (m : Mode) (a : Acc) (n : Nat) (e : Engine) : (e.hold m a n).mode = m := rfl
@[simp] theorem Engine.hold_sum (m : Mode) (a : Acc) (n : Nat) (e : Engine) : (e.hold m a n).sum = e.sum := rfl
@[simp] theorem Engine.hold_out (m : Mode) (a : Acc) (n : Nat) (e : Engine) : (e.hold m a n).out = e.out := rfl
@[simp] theorem Engine.hold_vok (m : Mode) (a : Acc) (n : Nat) (e : Engine) : (e.hold m a n).vok = e.vok := rfl
@[simp] theorem Engine.hold_errIll (m : Mode) (a : Acc) (n : Nat) (e : Engine) : (e.hold m a n).errIll = e.errIll := rfl
@[simp] theorem Engine.hold_errSeq (m : Mode) (a : Acc) (n : Nat) (e : Engine) : (e.hold m a n).errSeq = e.errSeq := rfl
@[simp] theorem Engine.hold_errPad (m : Mode) (a : Acc) (n : Nat) (e : Engine) : (e.hold m a n).errPad = e.errPad := rfl
@[simp] theorem Engine.hold_cause (m : Mode) (a : Acc) (n : Nat) (e : Engine) : (e.hold m a n).cause = e.cause := rfl

/-! ### `Engine.emptyRepacker` -/

@[simp] theorem Engine.emptyRepacker_chk (e : Engine) : e.emptyRepacker.chk = e.chk := rfl
@[simp] theorem Engine.emptyRepacker_variant (e : Engine) : e.emptyRepacker.variant = e.variant := rfl
@[simp] theorem Engine.emptyRepacker_acc (e : Engine) : e.emptyRepacker.acc = 0 := rfl
@[simp] theorem Engine.emptyRepacker_nbits (e : Engine) : e.emptyRepacker.nbits = 0 := rfl
@[simp] theorem Engine.emptyRepacker_mode (e : Engine) : e.emptyRepacker.mode = .idle := rfl
@[simp] theorem Engine.emptyRepacker_sum (e : Engine) : e.emptyRepacker.sum = e.sum := rfl
@[simp] theorem Engine.emptyRepacker_out (e : Engine) : e.emptyRepacker.out = e.out := rfl
@[simp] theorem Engine.emptyRepacker_vok (e : Engine) : e.emptyRepacker.vok = e.vok := rfl
@[simp] theorem Engine.emptyRepacker_errIll (e : Engine) : e.emptyRepacker.errIll = e.errIll := rfl
@[simp] theorem Engine.emptyRepacker_errSeq (e : Engine) : e.emptyRepacker.errSeq = e.errSeq := rfl
@[simp] theorem Engine.emptyRepacker_errPad (e : Engine) : e.emptyRepacker.errPad = e.errPad := rfl
@[simp] theorem Engine.emptyRepacker_cause (e : Engine) : e.emptyRepacker.cause = e.cause := rfl

/-! ### `Engine.raise` -/

@[simp] theorem Engine.raise_chk (k : EngineError) (e : Engine) : (e.raise k).chk = e.chk := rfl
@[simp] theorem Engine.raise_variant (k : EngineError) (e : Engine) : (e.raise k).variant = e.variant := rfl
@[simp] theorem Engine.raise_acc (k : EngineError) (e : Engine) : (e.raise k).acc = e.acc := rfl
@[simp] theorem Engine.raise_nbits (k : EngineError) (e : Engine) : (e.raise k).nbits = e.nbits := rfl
@[simp] theorem Engine.raise_mode (k : EngineError) (e : Engine) : (e.raise k).mode = e.mode := rfl
@[simp] theorem Engine.raise_sum (k : EngineError) (e : Engine) : (e.raise k).sum = e.sum := rfl
@[simp] theorem Engine.raise_out (k : EngineError) (e : Engine) : (e.raise k).out = e.out := rfl
@[simp] theorem Engine.raise_vok (k : EngineError) (e : Engine) : (e.raise k).vok = e.vok := rfl
@[simp] theorem Engine.raise_errIll (k : EngineError) (e : Engine) : (e.raise k).errIll = (e.errIll || k == .illegalCommand) := rfl
@[simp] theorem Engine.raise_errSeq (k : EngineError) (e : Engine) : (e.raise k).errSeq = (e.errSeq || k == .sequenceError) := rfl
@[simp] theorem Engine.raise_errPad (k : EngineError) (e : Engine) : (e.raise k).errPad = (e.errPad || k == .paddingError) := rfl
@[simp] theorem Engine.raise_cause (k : EngineError) (e : Engine) : (e.raise k).cause = e.cause.or (some k) := rfl

/-! ### `Engine.clearErrors` -/

@[simp] theorem Engine.clearErrors_chk (e : Engine) : e.clearErrors.chk = e.chk := rfl
@[simp] theorem Engine.clearErrors_variant (e : Engine) : e.clearErrors.variant = e.variant := rfl
@[simp] theorem Engine.clearErrors_acc (e : Engine) : e.clearErrors.acc = e.acc := rfl
@[simp] theorem Engine.clearErrors_nbits (e : Engine) : e.clearErrors.nbits = e.nbits := rfl
@[simp] theorem Engine.clearErrors_mode (e : Engine) : e.clearErrors.mode = e.mode := rfl
@[simp] theorem Engine.clearErrors_sum (e : Engine) : e.clearErrors.sum = e.sum := rfl
@[simp] theorem Engine.clearErrors_out (e : Engine) : e.clearErrors.out = e.out := rfl
@[simp] theorem Engine.clearErrors_vok (e : Engine) : e.clearErrors.vok = e.vok := rfl
@[simp] theorem Engine.clearErrors_errIll (e : Engine) : e.clearErrors.errIll = false := rfl
@[simp] theorem Engine.clearErrors_errSeq (e : Engine) : e.clearErrors.errSeq = false := rfl
@[simp] theorem Engine.clearErrors_errPad (e : Engine) : e.clearErrors.errPad = false := rfl
@[simp] theorem Engine.clearErrors_cause (e : Engine) : e.clearErrors.cause = none := rfl

/-! ### `Engine.feedback` -/

@[simp] theorem Engine.feedback_chk (p : Bool) (gs : List Group) (e : Engine) : (e.feedback p gs).chk = if p then polyFeed e.chk gs else e.chk := by cases p <;> rfl
@[simp] theorem Engine.feedback_variant (p : Bool) (gs : List Group) (e : Engine) : (e.feedback p gs).variant = e.variant := by cases p <;> rfl
@[simp] theorem Engine.feedback_acc (p : Bool) (gs : List Group) (e : Engine) : (e.feedback p gs).acc = e.acc := by cases p <;> rfl
@[simp] theorem Engine.feedback_nbits (p : Bool) (gs : List Group) (e : Engine) : (e.feedback p gs).nbits = e.nbits := by cases p <;> rfl
@[simp] theorem Engine.feedback_mode (p : Bool) (gs : List Group) (e : Engine) : (e.feedback p gs).mode = e.mode := by cases p <;> rfl
@[simp] theorem Engine.feedback_sum (p : Bool) (gs : List Group) (e : Engine) : (e.feedback p gs).sum = e.sum := by cases p <;> rfl
@[simp] theorem Engine.feedback_out (p : Bool) (gs : List Group) (e : Engine) : (e.feedback p gs).out = e.out := by cases p <;> rfl
@[simp] theorem Engine.feedback_vok (p : Bool) (gs : List Group) (e : Engine) : (e.feedback p gs).vok = e.vok := by cases p <;> rfl
@[simp] theorem Engine.feedback_errIll (p : Bool) (gs : List Group) (e : Engine) : (e.feedback p gs).errIll = e.errIll := by cases p <;> rfl
@[simp] theorem Engine.feedback_errSeq (p : Bool) (gs : List Group) (e : Engine) : (e.feedback p gs).errSeq = e.errSeq := by cases p <;> rfl
@[simp] theorem Engine.feedback_errPad (p : Bool) (gs : List Group) (e : Engine) : (e.feedback p gs).errPad = e.errPad := by cases p <;> rfl
@[simp] theorem Engine.feedback_cause (p : Bool) (gs : List Group) (e : Engine) : (e.feedback p gs).cause = e.cause := by cases p <;> rfl

/-! ### `State.onEngine` -/

@[simp] theorem State.onEngine_engine (f : Engine → Engine) (s : State) : (s.onEngine f).engine = f s.engine := rfl
@[simp] theorem State.onEngine_pending (f : Engine → Engine) (s : State) : (s.onEngine f).pending = s.pending := rfl
@[simp] theorem State.onEngine_position (f : Engine → Engine) (s : State) : (s.onEngine f).position = s.position := rfl
@[simp] theorem State.onEngine_reads (f : Engine → Engine) (s : State) : (s.onEngine f).reads = s.reads := rfl

/-! ### `State.advance` -/

@[simp] theorem State.advance_engine (rest : List HostEvent) (s : State) : (s.advance rest).engine = s.engine := rfl
@[simp] theorem State.advance_pending (rest : List HostEvent) (s : State) : (s.advance rest).pending = rest := rfl
@[simp] theorem State.advance_position (rest : List HostEvent) (s : State) : (s.advance rest).position = s.position + 1 := rfl
@[simp] theorem State.advance_reads (rest : List HostEvent) (s : State) : (s.advance rest).reads = s.reads := rfl

/-! ### `State.returned` -/

@[simp] theorem State.returned_engine (w : Word) (s : State) : (s.returned w).engine = s.engine := rfl
@[simp] theorem State.returned_pending (w : Word) (s : State) : (s.returned w).pending = s.pending := rfl
@[simp] theorem State.returned_position (w : Word) (s : State) : (s.returned w).position = s.position := rfl
@[simp] theorem State.returned_reads (w : Word) (s : State) : (s.returned w).reads = w :: s.reads := rfl

/-! ### `State.placeCommand` -/

@[simp] theorem State.placeCommand_engine (w : Word) (s : State) : (s.placeCommand w).engine = s.engine := rfl
@[simp] theorem State.placeCommand_pending (w : Word) (s : State) : (s.placeCommand w).pending = cmdWrite w :: s.pending.tail := rfl
@[simp] theorem State.placeCommand_position (w : Word) (s : State) : (s.placeCommand w).position = s.position := rfl
@[simp] theorem State.placeCommand_reads (w : Word) (s : State) : (s.placeCommand w).reads = s.reads := rfl

/-! ### `State.withFetchWord` -/

@[simp] theorem State.withFetchWord_engine (nbits w : Nat) (s : State) : (s.withFetchWord nbits w).engine = s.engine := rfl
@[simp] theorem State.withFetchWord_pending (nbits w : Nat) (s : State) : (s.withFetchWord nbits w).pending = cmdWrite (tableWord nbits w) :: s.pending.tail := rfl
@[simp] theorem State.withFetchWord_position (nbits w : Nat) (s : State) : (s.withFetchWord nbits w).position = s.position := rfl
@[simp] theorem State.withFetchWord_reads (nbits w : Nat) (s : State) : (s.withFetchWord nbits w).reads = s.reads := rfl

end Sys2Proof.Machine
end

