-- ==== Sys2Proof/Laws/Ops.lean ====
section
/-! SUPPORT. What each shared operation does, said once: callers cite these and do not unfold the operations. -/

namespace Sys2Proof.Machine

/-! ### Feeding the accumulator -/

@[simp] theorem polyFeed_nil (c : Chk) : polyFeed c [] = c := rfl

@[simp] theorem polyFeed_cons (c : Chk) (g : Group) (gs : List Group) :
    polyFeed c (g :: gs) = polyFeed (polyStep c g) gs := rfl

theorem polyFeed_append (c : Chk) (gs hs : List Group) : polyFeed c (gs ++ hs) = polyFeed (polyFeed c gs) hs :=
  List.foldl_append

@[simp] theorem feedback_off (gs : List Group) (e : Engine) : e.feedback false gs = e := rfl

@[simp] theorem feedback_nil (p : Bool) (e : Engine) : e.feedback p [] = e := by cases p <;> rfl

/-- The five conditional XORs of R67, written out. -/
theorem polyStep_unrolled (c : Chk) (v : Group) : polyStep c v =
    (let t₀ : Chk := c.extractLsb' 0 25 ++ v
     let t₁ := if c.getLsbD 25 then t₀ ^^^ 0x3b6a57b2#30 else t₀
     let t₂ := if c.getLsbD 26 then t₁ ^^^ 0x26508e6d#30 else t₁
     let t₃ := if c.getLsbD 27 then t₂ ^^^ 0x1ea119fa#30 else t₂
     let t₄ := if c.getLsbD 28 then t₃ ^^^ 0x3d4233dd#30 else t₃
     if c.getLsbD 29 then t₄ ^^^ 0x2a1462b3#30 else t₄) := by
  have five : List.finRange 5 = [0, 1, 2, 3, 4] := by decide
  simp only [polyStep, five, List.foldl_cons, List.foldl_nil, BitVec.getLsbD_extractLsb']
  rfl

/-! ### The repacker's slices -/

/-- The low bits of an accumulator value, as a number. -/
theorem lowBits_toNat (a : Acc) (n : Nat) : (lowBits a n).toNat = a.toNat % 2 ^ n := by
  have ha := a.isLt
  have hle : a.toNat % 2 ^ n ≤ a.toNat := Nat.mod_le _ _
  simp only [lowBits, BitVec.toNat_setWidth, BitVec.extractLsb'_toNat, Nat.shiftRight_zero]
  exact Nat.mod_eq_of_lt (by omega)

/-- The loop of R79 leaves the remainder by 5. -/
theorem bitsLeft_eq_mod (n : Nat) : bitsLeft n = n % 5 := by
  induction n using bitsLeft.induct with
  | case1 n ih => rw [bitsLeft, ih]; omega
  | case2 n h =>
    have hn : n < 5 := by
      rcases Nat.lt_or_ge n 5 with hlt | hge
      · exact hlt
      · exact absurd (show n = (n - 5) + 5 by omega) (h (n - 5))
    rw [bitsLeft.eq_def]
    split
    · omega
    · exact (Nat.mod_eq_of_lt hn).symm

/-- The loop of R79 gives out one group for each five bits. -/
theorem takeGroups_length (a : Acc) (n : Nat) : (takeGroups a n).length = n / 5 := by
  induction n using bitsLeft.induct with
  | case1 n ih => rw [takeGroups, List.length_cons, ih]; omega
  | case2 n h =>
    have hn : n < 5 := by
      rcases Nat.lt_or_ge n 5 with hlt | hge
      · exact hlt
      · exact absurd (show n = (n - 5) + 5 by omega) (h (n - 5))
    rw [takeGroups.eq_def]
    split
    · omega
    · simp; omega

/-! ### Errors -/

/-- `if STATUS.CAUSE = 0: STATUS.CAUSE <- k` (R89). -/
theorem raise_cause_eq (k : EngineError) (e : Engine) :
    (e.raise k).cause = if e.cause = none then some k else e.cause := by
  rw [Engine.raise_cause]
  cases e.cause <;> rfl

/-- Raising an error sets its own sticky bit and clears none (R89). -/
theorem raise_keeps (k : EngineError) (e : Engine) :
    (e.errIll = true → (e.raise k).errIll = true) ∧ (e.errSeq = true → (e.raise k).errSeq = true) ∧
      (e.errPad = true → (e.raise k).errPad = true) ∧ (e.raise k).cause ≠ none := by
  exact ⟨fun h => by simp [h], fun h => by simp [h], fun h => by simp [h], by simp⟩

/-- Raising an error keeps the error record consistent. -/
theorem raise_errorsOk (k : EngineError) {e : Engine} (h : e.ErrorsOk) : (e.raise k).ErrorsOk := by
  obtain ⟨h0, h1, h2, h3⟩ := h
  rcases hc : e.cause with _ | c
  · cases k <;> simp [Engine.ErrorsOk, hc]
  · cases c <;> cases k <;> simp_all [Engine.ErrorsOk]

/-! ### The frame of a command -/

/-- A command answers one next state, and only the engine in it differs. -/
theorem command_eq (rule : Engine → Engine) (s : State) :
    command rule s = .next { s with engine := rule s.engine.clearOut } := rfl

theorem command_next {rule : Engine → Engine} {s t : State} (h : command rule s = .next t) :
    t.engine = rule s.engine.clearOut ∧ t.pending = s.pending ∧ t.position = s.position ∧ t.reads = s.reads := by
  cases h
  exact ⟨rfl, rfl, rfl, rfl⟩

/-! ### The register window -/

@[simp] theorem regAt_regOffset (r : Reg) : regAt (regOffset r) = some r := by cases r <;> decide

/-- The window's registers stand at the eight offsets of R34. -/
theorem regAt_eq_some {offset : Int} {r : Reg} (h : regAt offset = some r) : offset = regOffset r := by
  have := List.find?_some h
  simpa using (beq_iff_eq.mp this).symm

/-- No register stands elsewhere. -/
theorem regAt_eq_none {offset : Int} (h : regAt offset = none) (r : Reg) : offset ≠ regOffset r := by
  rintro rfl
  simp at h

/-- Everything an access can lead to (R35, R33). -/
theorem withReg_cases (offset : Int) (size : Nat) (k : Reg → Result) :
    (size ≠ 4 ∧ withReg offset size k = .refused .accessSize) ∨
      (size = 4 ∧ offset % 4 ≠ 0 ∧ withReg offset size k = .refused .misalignedAccess) ∨
      (size = 4 ∧ offset % 4 = 0 ∧ regAt offset = none ∧ withReg offset size k = .fault .outsideWindow) ∨
      (∃ r, size = 4 ∧ offset = regOffset r ∧ withReg offset size k = k r) := by
  unfold withReg
  by_cases hs : size = 4
  · by_cases ha : offset % 4 = 0
    · rcases hr : regAt offset with _ | r
      · simp [hs, ha]
      · exact .inr (.inr (.inr ⟨r, hs, regAt_eq_some hr, by simp [hs, ha]⟩))
    · simp [hs, ha]
  · simp [hs]

/-- A 4-byte access at a register's offset reaches that register. -/
@[simp] theorem withReg_regOffset (r : Reg) (k : Reg → Result) : withReg (regOffset r) 4 k = k r := by
  cases r <;> rfl

end Sys2Proof.Machine
end

