-- ==== Sys2Proof/Laws/PerInstr.lean ====
section
/-! SUPPORT. Statements about every command as syntax, one lemma per constructor. -/

/-- The word a command encodes to keeps the fixed bits of that command's own row of 30_encoding.md R54. -/
def Sys2Proof.Laws.EncodeFitsRow.Statement (i : Sys2Proof.Instr) : Prop :=
  i.mnemonic.row.encodes (Sys2Proof.encode i) = true

namespace Sys2Proof.Laws.EncodeFitsRow

theorem nop : Statement .nop := rfl

theorem init (v : Variant) : Statement (.init v) := by cases v <;> rfl

theorem poly (g : Group) : Statement (.poly g) := by unfold Statement; revert g; decide

theorem hrph (c : Byte) : Statement (.hrph c) := by unfold Statement; revert c; decide

theorem hrpl (c : Byte) : Statement (.hrpl c) := by unfold Statement; revert c; decide

theorem enc8 (p : Bool) (b : Byte) : Statement (.enc8 p b) := by unfold Statement; revert p b; decide

theorem encflush (p : Bool) : Statement (.encflush p) := by cases p <;> rfl

theorem dec5 (p : Bool) (g : Group) : Statement (.dec5 p g) := by unfold Statement; revert p g; decide

theorem decend : Statement .decend := rfl

theorem fin : Statement .fin := rfl

theorem verify : Statement .verify := rfl

end Sys2Proof.Laws.EncodeFitsRow
end

