-- ==== Sys2Proof/Laws/Step.lean ====
section
/-! SUPPORT. What a step can do, said once. -/

namespace Sys2Proof.Machine

/-- Every command answers a next state, in which only the engine can differ (60_exceptions.md R93: an error does not stop the
engine). -/
theorem exec_next (i : Instr) (s : State) : ∃ e, exec i s = .next { s with engine := e } := by
  cases i <;> exact ⟨_, rfl⟩

/-- So does a word written to `CMD`, legal or not. -/
theorem execWord_next (w : Word) (s : State) : ∃ e, execWord w s = .next { s with engine := e } := by
  unfold execWord
  split
  · exact exec_next _ s
  · exact ⟨_, rfl⟩

/-- A write of a register other than `CMD` is ignored (20_memory.md R36, R37). -/
theorem writeReg_ignored {r : Reg} (hr : r ≠ .cmd) (w : Word) (s : State) : writeReg r w s = .next s := by
  cases r <;> first | exact absurd rfl hr | rfl

/-- With nothing pending, the engine waits. -/
theorem step_idle {s : State} (h : s.pending = []) : step s = .next s := by
  simp [step, serveNext, h]

/-- A step serves the oldest event. -/
theorem step_serves {s : State} {ev : HostEvent} {rest : List HostEvent} (h : s.pending = ev :: rest) :
    step s = serve ev (s.advance rest) := by
  simp [step, serveNext, h]

/-- A write of a word to `CMD`. -/
theorem step_cmdWrite {s : State} {w : Word} {rest : List HostEvent} (h : s.pending = .write 0 4 w :: rest) :
    step s = execWord w (s.advance rest) := by
  rw [step_serves h]
  rfl

/-- Every way a step can answer a next state. -/
theorem step_cases {s t : State} (h : step s = .next t) :
    (s.pending = [] ∧ t = s) ∨
      (∃ rest, s.pending = .reset :: rest ∧ t = { s.advance rest with engine := Engine.reset }) ∨
      (∃ r rest, s.pending = .read (regOffset r) 4 :: rest ∧ t = (s.advance rest).returned (regWord r s.engine)) ∨
      (∃ r w rest, s.pending = .write (regOffset r) 4 w :: rest ∧ r ≠ .cmd ∧ t = s.advance rest) ∨
      (∃ w rest, s.pending = .write 0 4 w :: rest ∧ execWord w (s.advance rest) = .next t) := by
  rcases hp : s.pending with _ | ⟨ev, rest⟩
  · rw [step_idle hp] at h
    cases h
    exact .inl ⟨rfl, rfl⟩
  · rw [step_serves hp] at h
    refine .inr ?_
    cases ev with
    | reset => cases h; exact .inl ⟨rest, rfl, rfl⟩
    | read offset size =>
      refine .inr (.inl ?_)
      rcases withReg_cases offset size (fun r => readReg r (s.advance rest)) with
        ⟨-, e⟩ | ⟨-, -, e⟩ | ⟨-, -, -, e⟩ | ⟨r, rfl, rfl, e⟩ <;> simp only [serve] at h <;> rw [e] at h <;> cases h
      exact ⟨r, rest, rfl, rfl⟩
    | write offset size w =>
      refine .inr (.inr ?_)
      rcases withReg_cases offset size (fun r => writeReg r w (s.advance rest)) with
        ⟨-, e⟩ | ⟨-, -, e⟩ | ⟨-, -, -, e⟩ | ⟨r, rfl, rfl, e⟩ <;> simp only [serve] at h <;> rw [e] at h <;> try cases h
      by_cases hr : r = .cmd
      · subst hr
        exact .inr ⟨w, rest, rfl, h⟩
      · rw [writeReg_ignored hr] at h
        cases h
        exact .inl ⟨r, w, rest, rfl, hr, rfl⟩

/-! ### What the next event is -/

/-- The next event carries a legal command exactly when it is a 4-byte write of offset 0 whose word decodes to it. -/
theorem nextInstr_eq_some {s : State} {i : Instr} :
    s.nextInstr = some i ↔ ∃ w rest, s.pending = .write 0 4 w :: rest ∧ decode w = .ok i := by
  unfold State.nextInstr State.nextWord
  rcases hp : s.pending with _ | ⟨ev, rest⟩
  · simp
  · cases ev with
    | read => simp
    | reset => simp
    | write off sz w =>
      by_cases hc : off = 0 ∧ sz = 4
      · obtain ⟨rfl, rfl⟩ := hc
        rcases hd : decode w with y | j <;> simp [hd]
      · simp only [if_neg hc]
        constructor
        · intro h; cases h
        · rintro ⟨w', r', he, hd⟩; cases he; exact absurd ⟨rfl, rfl⟩ hc

/-- The next event carries an illegal word exactly when it is such a write and its word does not decode. -/
theorem nextIllegal_iff {s : State} :
    s.NextIllegal ↔ ∃ w rest why, s.pending = .write 0 4 w :: rest ∧ decode w = .error why := by
  unfold State.NextIllegal State.nextInstr State.nextWord
  rcases hp : s.pending with _ | ⟨ev, rest⟩
  · simp
  · cases ev with
    | read => simp
    | reset => simp
    | write off sz w =>
      by_cases hc : off = 0 ∧ sz = 4
      · obtain ⟨rfl, rfl⟩ := hc
        rcases hd : decode w with y | j <;> simp [hd]
      · simp only [if_neg hc]
        constructor
        · intro h; cases h.1
        · rintro ⟨w', r', y, he, hd⟩; cases he; exact absurd ⟨rfl, rfl⟩ hc

theorem nextReset_iff {s : State} : s.nextReset = true ↔ ∃ rest, s.pending = .reset :: rest := by
  unfold State.nextReset
  rcases hp : s.pending with _ | ⟨ev, rest⟩
  · simp
  · cases ev <;> simp

/-- What a step does to the engine, by what the next event is: a reset, nothing that touches the engine, an illegal word, or a
legal command. -/
theorem step_engine_cases {s t : State} (h : step s = .next t) :
    (s.nextReset = true ∧ s.nextInstr = none ∧ ¬s.NextIllegal ∧ t.engine = Engine.reset) ∨
      (s.nextReset = false ∧ s.nextInstr = none ∧ ¬s.NextIllegal ∧ t.engine = s.engine) ∨
      (s.nextReset = false ∧ s.nextInstr = none ∧ s.NextIllegal ∧ t.engine = s.engine.clearOut.raise .illegalCommand) ∨
      (∃ i, s.nextReset = false ∧ s.nextInstr = some i ∧ ¬s.NextIllegal ∧
        ∃ s', s'.engine = s.engine ∧ exec i s' = .next t) := by
  rcases step_cases h with ⟨hp, rfl⟩ | ⟨rest, hp, rfl⟩ | ⟨r, rest, hp, rfl⟩ | ⟨r, w, rest, hp, hr, rfl⟩ | ⟨w, rest, hp, he⟩
  · right; left; simp [State.nextReset, State.nextInstr, State.NextIllegal, State.nextWord, hp]
  · left; simp [State.nextReset, State.nextInstr, State.NextIllegal, State.nextWord, hp]
  · right; left; simp [State.nextReset, State.nextInstr, State.NextIllegal, State.nextWord, hp]
  · right; left
    have h0 : regOffset r ≠ 0 := by cases r <;> first | exact absurd rfl hr | decide
    simp [State.nextReset, State.nextInstr, State.NextIllegal, State.nextWord, hp, h0]
  · right; right
    rcases hd : decode w with y | i
    · left
      rw [execWord, hd] at he
      cases he
      simp [State.nextReset, State.nextInstr, State.NextIllegal, State.nextWord, hp, hd]
    · right
      rw [execWord, hd] at he
      refine ⟨i, ?_, ?_, ?_, _, ?_, he⟩ <;>
        simp [State.nextReset, State.nextInstr, State.NextIllegal, State.nextWord, hp, hd]

end Sys2Proof.Machine
end

