-- ==== Sys2Proof/Tests/Slice0.lean ====
section
/-! SUPPORT. The model's own tests. Every expected value is taken from the spec: a word written out from 30_encoding.md R54, a row
of 95_test_vectors.md (named in the comment), or a rule's own example. The witness theorems give concrete states and operands
that meet the hypotheses of the statements in Certificates/Slice0/Obligations.lean, clause by clause. -/

namespace Sys2Proof.Tests

open Sys2Proof.Machine

/-! ### What the assembler refuses, one ill-formed line per check (30_encoding.md R62) -/

/-- `NOP.P`: the suffix is allowed only on three mnemonics. -/
theorem test_wf_suffix : (AsmCommand.mk .NOP true none).wellFormed = false := by decide

/-- `FIN 0`: no operand where the form takes none. -/
theorem test_wf_no_operand : (AsmCommand.mk .FIN false (some (.num 0))).wellFormed = false := by decide

/-- `POLY`: an operand is missing. -/
theorem test_wf_missing_operand : (AsmCommand.mk .POLY false none).wellFormed = false := by decide

/-- `INIT 2`. -/
theorem test_wf_variant : (AsmCommand.mk .INIT false (some (.num 2))).wellFormed = false := by decide

/-- `POLY 32`. -/
theorem test_wf_group : (AsmCommand.mk .POLY false (some (.num 32))).wellFormed = false := by decide

/-- `HRPH 256`. -/
theorem test_wf_char : (AsmCommand.mk .HRPH false (some (.num 256))).wellFormed = false := by decide

/-- `ENC8.P 256`. -/
theorem test_wf_byte : (AsmCommand.mk .ENC8 true (some (.num 256))).wellFormed = false := by decide

/-- `POLY BECH32`: the variant names belong to `INIT`. -/
theorem test_wf_variantName : (AsmCommand.mk .POLY false (some (.variantName .bech32))).wellFormed = false := by decide

/-- A character literal that has no ASCII code. -/
theorem test_wf_ascii : (AsmCommand.mk .HRPH false (some (.chr 'é'))).wellFormed = false := by decide

/-- `rd` of an offset that R34 gives no name; a pseudo-instruction with a group above 31. -/
theorem test_wf_lines : (AsmLine.rd .reserved18).wellFormed = false ∧ (AsmLine.polys [.num 0, .num 32]).wellFormed = false := by
  decide

/-- Lines the assembler accepts. -/
theorem test_wf_accepts :
    (AsmCommand.mk .INIT false (some (.variantName .bech32m))).wellFormed = true ∧
      (AsmLine.seed [.chr 'h', .chr 'w']).wellFormed = true ∧ (AsmLine.encdata true []).wellFormed = true := by decide

/-! ### Decoding: words written out from R54, `OP ++ RSV ++ P ++ D` -/

theorem test_decode_nop : decode 0b0000_0000000000000000000_0_00000000 = .ok .nop := by decide

theorem test_decode_init : decode 0b0001_0000000000000000000_0_00000001 = .ok (.init .bech32m) := by decide

theorem test_decode_poly : decode 0b0010_0000000000000000000_0_00010011 = .ok (.poly 0b10011) := by decide

theorem test_decode_hrph : decode 0b0011_0000000000000000000_0_10000001 = .ok (.hrph 0b10000001) := by decide

theorem test_decode_hrpl : decode 0b0100_0000000000000000000_0_10000001 = .ok (.hrpl 0b10000001) := by decide

theorem test_decode_enc8 : decode 0b0101_0000000000000000000_1_01111111 = .ok (.enc8 true 0b01111111) := by decide

theorem test_decode_encflush : decode 0b0110_0000000000000000000_1_00000000 = .ok (.encflush true) := by decide

theorem test_decode_dec5 : decode 0b0111_0000000000000000000_0_00011110 = .ok (.dec5 false 0b11110) := by decide

theorem test_decode_decend : decode 0b1000_0000000000000000000_0_00000000 = .ok .decend := by decide

theorem test_decode_fin : decode 0b1001_0000000000000000000_0_00000000 = .ok .fin := by decide

theorem test_decode_verify : decode 0b1010_0000000000000000000_0_00000000 = .ok .verify := by decide

/-- The illegal words of ER1, ER2, ER4, PM4, PM3, CT5, and P7's line 3, by the rule each breaks. -/
theorem test_decode_illegal :
    decode 0xB0000000 = .error .reservedOpcode ∧ decode 0xF00000FF = .error .reservedOpcode ∧
      decode 0x08000000 = .error .reservedBits ∧ decode 0x20000101 = .error .feedbackBit ∧
      decode 0x20000020 = .error .operandBits ∧ decode 0x10000002 = .error .operandBits ∧
      decode 0x5000FF00 = .error .reservedBits := by decide

/-- R62's table: the words of `HRPL 'a'`, `DEC5.P 27` and `INIT 1`. -/
theorem test_encode :
    encode (.hrpl 0x61) = 0x40000061 ∧ encode (.dec5 true 27) = 0x7000011B ∧ encode (.init .bech32m) = 0x10000001 := by decide

theorem test_decodeTableWord :
    decodeTableWord 32 0x500001A5 = some (.enc8 true 0xA5) ∧ decodeTableWord 32 0xB0000000 = none := by decide

/-! ### One step each, from the vectors of 95_test_vectors.md -/

/-- The machine after reset with these accesses pending. -/
def queued (evs : List HostEvent) : State := { State.reset with pending := evs }

/-- The machine after reset, its engine changed. -/
def withEngine (f : Engine → Engine) : State := State.reset.onEngine f

/-- The repacker in a direction, holding `n` bits that are all ones (the start names of 95_test_vectors.md section 2). -/
def holding (m : Mode) (n : Nat) : State :=
  withEngine fun e => { e with mode := m, nbits := BitVec.ofNat 4 n, acc := BitVec.ofNat 12 (2 ^ n - 1) }

/-- The registers a vector's row shows: OUT, CHK, SUM, ACC, STATUS. -/
def shown (r : Result) : Option (List Word) :=
  (nextOf r).map fun t => [Reg.out, .chk, .sum, .acc, .status].map fun r => regWord r t.engine

/-- PS12, PS13, PS16 and R67's example. -/
theorem test_polyStep :
    polyStep 0x3E000000 0 = 0x14CD914B ∧ polyStep 0x3FFFFFFF 0 = 0x2B326EAB ∧ polyStep 0x2BC830A3 5 = 0x36D9389E := by decide

/-- CT2: NOP clears a pending OUT. -/
theorem test_nop :
    shown (exec .nop (withEngine fun e => { e with out := ⟨0x14, 0, 1⟩, acc := 5, nbits := 3, mode := .enc })) =
      some [0, 1, 0, 5, 0x00310000] := by decide

/-- CT4 and CT3. -/
theorem test_init :
    shown (exec (.init .bech32) ((holding .enc 3).onEngine (Engine.raise .illegalCommand))) = some [0, 1, 0, 0, 0] ∧
      shown (exec (.init .bech32m) State.reset) = some [0, 1, 0, 0, 2] := by decide

/-- PM13 and PM14. -/
theorem test_poly :
    shown (exec (.poly 0) (withEngine fun e => { e with chk := 0x3B6A57B2, sum := 0x3B6A57B3 })) =
        some [0, 0x1FD7E966, 0x3B6A57B3, 0, 0] ∧
      shown (exec (.poly 7) (holding .enc 3)) = some [0, 0x27, 0, 7, 0x00310000] := by decide

/-- PM5, PM6, PM7. -/
theorem test_hrph :
    shown (exec (.hrph 0x61) State.reset) = some [0, 0x23, 0, 0, 0] ∧
      shown (exec (.hrph 0x41) State.reset) = some [0, 0x22, 0, 0, 0] ∧
      shown (exec (.hrph 0xFF) State.reset) = some [0, 0x27, 0, 0, 0] := by decide

/-- PM9, PM11, and R70's example. -/
theorem test_hrpl :
    shown (exec (.hrpl 0x61) State.reset) = some [0, 0x21, 0, 0, 0] ∧
      shown (exec (.hrpl 0xFF) State.reset) = some [0, 0x3F, 0, 0, 0] ∧
      shown (exec (.hrpl 0x61) (withEngine fun e => { e with chk := 0x460 })) = some [0, 0x8C01, 0, 0, 0] := by decide

/-- EN3, EN4, EN8. -/
theorem test_enc8 :
    shown (exec (.enc8 false 0xA5) (holding .enc 2)) = some [0x0002051D, 1, 0, 0, 0x00010000] ∧
      shown (exec (.enc8 false 0xA5) (holding .enc 3)) = some [0x0002121E, 1, 0, 1, 0x00110000] ∧
      shown (exec (.enc8 true 0xFF) (holding .enc 3)) = some [0x00021F1F, 0x7FF, 0, 1, 0x00110000] := by decide

/-- EN10: the wrong direction. -/
theorem test_enc8_rejected : shown (exec (.enc8 false 0x12) (holding .dec 5)) = some [0, 1, 0, 0x1F, 0x00520220] := by decide

/-- EN13 and EN17. -/
theorem test_encflush :
    shown (exec (.encflush false) (holding .enc 1)) = some [0x00010010, 1, 0, 0, 0] ∧
      shown (exec (.encflush true) ((holding .enc 3).onEngine fun e => { e with chk := 0x3F })) =
        some [0x0001001C, 0x7FC, 0, 0, 0] := by decide

/-- EN18 and EN19. -/
theorem test_encflush_edges :
    shown (exec (.encflush false) (holding .enc 0)) = some [0, 1, 0, 0, 0] ∧
      shown (exec (.encflush false) (holding .dec 5)) = some [0, 1, 0, 0x1F, 0x00520220] := by decide

/-- DE3, DE4, DE7. -/
theorem test_dec5 :
    shown (exec (.dec5 false 21) (holding .dec 2)) = some [0, 1, 0, 0x75, 0x00720000] ∧
      shown (exec (.dec5 false 21) (holding .dec 3)) = some [0x000100F5, 1, 0, 0, 0x00020000] ∧
      shown (exec (.dec5 false 21) (holding .dec 6)) = some [0x000100FE, 1, 0, 5, 0x00320000] := by decide

/-- DE10 and DE11. -/
theorem test_dec5_feedback :
    shown (exec (.dec5 true 31) State.reset) = some [0, 0x3F, 0, 0x1F, 0x00520000] ∧
      shown (exec (.dec5 false 1) (holding .enc 3)) = some [0, 1, 0, 7, 0x00310220] := by decide

/-- DE16, DE18 and DE15. -/
theorem test_decend :
    shown (exec .decend (holding .dec 2)) = some [0, 1, 0, 0, 0x00000340] ∧
      shown (exec .decend (withEngine fun e => { e with mode := .dec, nbits := 5 })) = some [0, 1, 0, 0, 0x00000340] ∧
      shown (exec .decend (withEngine fun e => { e with mode := .dec, nbits := 2 })) = some [0, 1, 0, 0, 0] := by decide

/-- DE22 and DE21: the first cause stays; the wrong direction is not checked for padding. -/
theorem test_decend_errors :
    shown (exec .decend ((holding .dec 2).onEngine (Engine.raise .illegalCommand))) = some [0, 1, 0, 0, 0x00000150] ∧
      shown (exec .decend (holding .enc 3)) = some [0, 1, 0, 7, 0x00310220] := by decide

/-- CK2 (after SEED "a") and CK3 (the same under Bech32m). -/
theorem test_fin :
    shown (exec .fin (withEngine fun e => { e with chk := 0x8C01 })) = some [0, 0x15CCFE9E, 0x15CCFE9F, 0, 0] ∧
      shown (exec .fin (withEngine fun e => { e with chk := 0x8C01, variant := .bech32m })) =
        some [0, 0x15CCFE9E, 0x3E04CE3D, 0, 2] := by decide

/-- CK4 and CK5. -/
theorem test_fin_unflushed :
    shown (exec .fin (holding .enc 3)) = some [0, 1, 0, 7, 0x00310220] ∧
      shown (exec .fin (holding .enc 0)) = some [0, 0x3B6A57B2, 0x3B6A57B3, 0, 0x00010000] := by decide

/-- CK8, CK9 and P3(a)'s line 11. -/
theorem test_verify :
    shown (exec .verify State.reset) = some [0, 1, 0, 0, 1] ∧
      shown (exec .verify (withEngine fun e => { e with variant := .bech32m })) = some [0, 1, 0, 0, 2] ∧
      shown (exec .verify (withEngine fun e => { e with variant := .bech32m, chk := 0x2BC830A3 })) =
        some [0, 0x2BC830A3, 0, 0, 3] := by decide

/-- ER1 and CT5: an illegal word through the bus. -/
theorem test_illegal_words :
    shown (step (queued [cmdWrite 0xB0000000])) = some [0, 1, 0, 0, 0x00000110] ∧
      shown (step { (holding .enc 3).onEngine (Engine.raise .illegalCommand) with pending := [cmdWrite 0x10000002] }) =
        some [0, 1, 0, 7, 0x00310110] := by decide

/-- A read returns a register's word (R34) and the host's line is taken. -/
theorem test_read :
    (nextOf (step (queued [regRead .chk, .reset]))).map (fun t => (t.reads, t.position, t.pending)) =
      some ([1], 1, [.reset]) := by decide

/-- R35 and R33: refused and faulting accesses. -/
theorem test_bad_accesses :
    step (queued [.read 0 2]) = .refused .accessSize ∧ step (queued [.write 2 4 0]) = .refused .misalignedAccess ∧
      step (queued [.read 0x20 4]) = .fault .outsideWindow ∧ step (queued [.read (-4) 4]) = .fault .outsideWindow :=
  ⟨rfl, rfl, rfl, rfl⟩

/-- A placed command is the next thing the machine runs. -/
theorem test_withFetchWord :
    shown (step (State.reset.withFetchWord 32 0x500000A5)) = some [0x00010014, 1, 0, 5, 0x00310000] := by decide

/-- R63: `SEED "a"`. -/
theorem test_seed :
    assembleLine (.seed [.chr 'a']) = some [cmdWrite 0x30000061, cmdWrite 0x20000000, cmdWrite 0x40000061] := by decide

/-- V1: the source's checksum of prefix "a" and an empty payload, and its groups `2uel5l`. -/
theorem test_source_checksum :
    createChecksum .bech32 [0x61] [] = 0x15CCFE9F ∧ checksumGroups 0x15CCFE9F = [10, 28, 25, 31, 20, 31] := by decide

/-- P4 and P5: the groups of DE AD BE EF and back. -/
theorem test_source_repack :
    encodeBytes [0xDE, 0xAD, 0xBE, 0xEF] = [27, 26, 22, 27, 29, 27, 24] ∧
      decodeToBytes [27, 26, 22, 27, 29, 27, 24] = [0xDE, 0xAD, 0xBE, 0xEF] := by decide

/-! ### Witnesses: the hypotheses of every statement are met -/

theorem witness_EncodeOfDecodeIsTheWord : decode 0x700001FF ≠ .ok .nop ∧ decode 0x7000011F = .ok (.dec5 true 31) := by decide

/-- A legal word for each clause of R55: feedback opcodes, zero operand, one-bit operand, group operand. -/
theorem witness_LegalWordsAreTheTablesRows :
    decode 0x60000100 = .ok (.encflush true) ∧ decode 0xA0000000 = .ok .verify ∧
      decode 0x10000000 = .ok (.init .bech32) ∧ decode 0x2000001F = .ok (.poly 31) := by decide

theorem witness_WordsMeetingTheFieldRulesAreLegal :
    (0x7000011F#32).extractLsb' 9 19 = 0 ∧ ((0x7000011F#32).extractLsb' 28 4).toNat = 7 ∧
      (0x7000011F#32).getLsbD 8 = true ∧ (0x7000011F#32).extractLsb' 5 3 = 0 := by decide

theorem witness_NoWordMatchesTwoRows :
    Mnemonic.INIT.row ∈ opcodeTable ∧ (0x10000001#32) &&& Mnemonic.INIT.row.mask = Mnemonic.INIT.row.pattern := by decide

/-- Reserved opcodes at both ends of their range, and `RSV` bits 9 and 27 alone. -/
theorem witness_ReservedEncodingsAreIllegalNotRefused :
    ((0xB0000000#32).extractLsb' 28 4).toNat = 0xB ∧ ((0xFFFFFFFF#32).extractLsb' 28 4).toNat = 0xF ∧
      (0x50000200#32).extractLsb' 9 19 ≠ 0 ∧ (0x08000000#32).extractLsb' 9 19 ≠ 0 ∧
      (queued [cmdWrite 0xB0000000]).pending = [.write 0 4 0xB0000000] := by decide

theorem witness_AssemblerEmitsTheTablesWord :
    (assembleCommand ⟨.ENC8, true, some (.num 255)⟩).map encode = some 0x500001FF ∧
      (assembleCommand ⟨.INIT, false, some (.variantName .bech32m)⟩).map encode = some 0x10000001 ∧
      (assembleCommand ⟨.HRPH, false, some (.chr 'a')⟩).map encode = some 0x30000061 ∧
      (assembleCommand ⟨.ENCFLUSH, true, none⟩).map encode = some 0x60000100 ∧
      (assembleCommand ⟨.DEC5, true, some (.num 31)⟩).map encode = some 0x7000011F ∧
      assembleCommand ⟨.POLY, false, some (.num 32)⟩ = none := by decide

theorem witness_StepRunsDecodedCommand :
    (queued [cmdWrite 0x500000A5]).pending = [.write 0 4 0x500000A5] ∧ decode 0x500000A5 = .ok (.enc8 false 0xA5) := by decide

theorem witness_IllegalWordIsRecordedAndNotLatched :
    (queued [cmdWrite 0x20000020]).pending = [.write 0 4 0x20000020] ∧
      ∀ r ∈ opcodeTable, (0x20000020#32) &&& r.mask ≠ r.pattern := by decide

/-- Each of the eight offsets of R34 is read. -/
theorem witness_ReadReturnsTheRegisterOfItsOffset :
    [0x00, 0x04, 0x08, 0x0C, 0x10, 0x14, 0x18, 0x1C].map
        (fun off : Int => (nextOf (step (queued [.read off 4]))).map State.reads) =
      [some [0], some [0], some [0], some [0], some [1], some [0], some [0], some [0]] := by decide

theorem witness_CmdAndReservedOffsetsReadZero :
    (queued [.write 0x18 4 7]).pending = [.write 0x18 4 7] ∧ (queued [.read 0x1C 4]).pending = [.read 0x1C 4] := by decide

theorem witness_OnlyCmdWritesAndResetChangeTheEngine :
    (queued [.write 0x14 4 7]).pending = [.write 0x14 4 7] ∧
      ∃ t, step (queued [cmdWrite 0x20000000]) = .next t ∧ t.engine ≠ (queued [cmdWrite 0x20000000]).engine :=
  ⟨rfl, _, rfl, by decide⟩

theorem witness_ReadsHaveNoSideEffect :
    ∃ t u, step (queued [.read 0x10 4, .read 0x10 4]) = .next t ∧ step t = .next u ∧ u.reads = [1, 1] :=
  ⟨_, _, rfl, rfl, by decide⟩

/-- The window's last register is reached at its absolute address, whatever `ENGINE_BASE` is. -/
theorem witness_OnlyAlignedWordAccessesAreAccepted :
    ∃ ev, ev = readAt (Config.engineBase + 0x1C) 4 ∧ ∃ t, step (queued [ev]) = .next t := by
  refine ⟨_, rfl, ?_⟩
  have h : readAt (Config.engineBase + 0x1C) 4 = .read 0x1C 4 := by simp [readAt]
  rw [h]
  exact ⟨_, rfl⟩

/-- The first address above the window. (Whether an address below `ENGINE_BASE` exists depends on the open parameter.) -/
theorem witness_AlignedAccessOutsideTheWindowFaults :
    (Config.engineBase + 0x20) % 4 = 0 ∧ Config.engineBase + 0x20 ≤ Config.engineBase + 0x20 := by
  unfold Config.engineBase
  omega

theorem witness_EachStepServesOneLineInOrder :
    ∃ t, step (queued [.read 0x04 4, cmdWrite 0]) = .next t ∧ t.pending = [cmdWrite 0] := ⟨_, rfl, by decide⟩

theorem witness_ResetInputRestoresTheEngine :
    (queued [.reset]).pending = [.reset] ∧ (queued [cmdWrite 0x2000001F, .reset]).pending = [.write 0 4 0x2000001F, .reset] := by
  decide

/-- The largest accumulator value the second clause admits. -/
theorem witness_PolyStepIsTheSourcesIteration : (0x1FFFFFF#30).toNat < 2 ^ 25 := by decide

theorem witness_FinCreatesTheChecksum :
    ¬((holding .enc 0).engine.mode = .enc ∧ (holding .enc 0).engine.nbits ≠ 0) ∧
      ¬((holding .dec 7).engine.mode = .enc ∧ (holding .dec 7).engine.nbits ≠ 0) := by decide

/-- `NBITS` at both ends, idle and encoding; `OUT.CNT` 1 and 2. -/
theorem witness_Enc8GivesOutEveryCompleteGroup :
    (State.reset.engine.RepackerOk ∧ State.reset.engine.mode ≠ .dec) ∧
      ((holding .enc 4).engine.RepackerOk ∧ (holding .enc 4).engine.mode ≠ .dec) ∧
      (nextOf (exec (.enc8 true 0xFF) State.reset)).map (fun t => t.engine.out.cnt) = some 1 ∧
      (nextOf (exec (.enc8 true 0xFF) (holding .enc 4))).map (fun t => t.engine.out.cnt) = some 2 := by decide

theorem witness_EncflushPadsTheFinalGroup :
    ((holding .enc 4).engine.RepackerOk ∧ (holding .enc 4).engine.mode ≠ .dec ∧ (holding .enc 4).engine.nbits ≠ 0) ∧
      (State.reset.engine.RepackerOk ∧ State.reset.engine.mode ≠ .dec ∧ State.reset.engine.nbits = 0) := by decide

/-- The two clauses at the values where they meet, `NBITS` 2 and 3, and at the largest, 7. -/
theorem witness_Dec5GivesOutACompleteByte :
    ((holding .dec 2).engine.RepackerOk ∧ (holding .dec 2).engine.mode ≠ .enc) ∧
      ((holding .dec 3).engine.RepackerOk ∧ (holding .dec 3).engine.mode ≠ .enc) ∧
      ((holding .dec 7).engine.RepackerOk ∧ (holding .dec 7).engine.mode ≠ .enc) := by decide

theorem witness_DecendChecksThePadding : (holding .dec 4).engine.mode ≠ .enc ∧ (holding .idle 0).engine.mode ≠ .enc := by decide

theorem witness_RepackerDirectionFollowsTheCommands :
    sequenceRejects (.enc8 true 1) (holding .enc 4).engine = false ∧ sequenceRejects .fin (holding .dec 1).engine = false ∧
      Instr.fin.mnemonic ∉ [Mnemonic.ENC8, .DEC5, .ENCFLUSH, .DECEND, .INIT] := by decide

theorem witness_FeedbackFeedsEachGroupExactlyOnce :
    (holding .enc 3).engine.RepackerOk ∧ (nextOf (exec (.enc8 true 0xFF) (holding .enc 3))).isSome = true ∧
      (nextOf (exec (.encflush true) (holding .enc 3))).isSome = true ∧
      (holding .dec 7).engine.RepackerOk ∧ (holding .dec 7).engine.mode ≠ .enc ∧
      (nextOf (exec (.dec5 true 1) (holding .dec 7))).isSome = true := by decide

theorem witness_VariantIsWrittenOnlyByInitAndReset :
    (∃ t, step (queued [cmdWrite 0x10000001]) = .next t ∧ t.engine.variant ≠ .bech32) ∧
      ∃ t, step { withEngine (fun e => { e with variant := .bech32m }) with pending := [.reset] } = .next t ∧
        t.engine.variant ≠ .bech32m :=
  ⟨⟨_, rfl, by decide⟩, _, rfl, by decide⟩

/-- An accepted and a rejected `FIN`. -/
theorem witness_SumIsWrittenOnlyByFinInitAndReset :
    (queued [cmdWrite 0x90000000]).nextInstr = some .fin ∧ sequenceRejects .fin State.reset.engine = false ∧
      sequenceRejects .fin (holding .enc 1).engine = true ∧ SafeStep (queued [cmdWrite 0x90000000]) := by decide

theorem witness_VokIsWrittenOnlyByVerifyInitAndReset :
    (queued [cmdWrite 0xA0000000]).nextInstr = some .verify ∧ SafeStep (queued [cmdWrite 0xA0000000]) := by decide

theorem witness_OutHoldsTheLastCommandsOutput :
    (holding .dec 5).engine.RepackerOk ∧ sequenceRejects (.encflush false) (holding .dec 5).engine = true ∧
      sequenceRejects (.dec5 true 3) (holding .dec 5).engine = false ∧ (queued [cmdWrite 1]).NextIllegal ∧
      SafeStep (queued [cmdWrite 1]) := by decide

theorem witness_CommandsIgnoreErrorsAndResults :
    ∃ s₁ s₂ t₁ t₂ u₁ u₂ : State, s₁ = State.reset ∧
      s₂ = withEngine (fun e => { e with vok := true, sum := 9, errPad := true, cause := some .paddingError }) ∧
      s₁.engine ≠ s₂.engine ∧ s₁.engine.chk = s₂.engine.chk ∧ s₁.engine.variant = s₂.engine.variant ∧
      s₁.engine.acc = s₂.engine.acc ∧ s₁.engine.nbits = s₂.engine.nbits ∧ s₁.engine.mode = s₂.engine.mode ∧
      ¬(s₁.engine.mode = .enc ∧ s₁.engine.nbits ≠ 0) ∧
      exec .fin s₁ = .next t₁ ∧ exec .fin s₂ = .next t₂ ∧ exec .verify s₁ = .next u₁ ∧ exec .verify s₂ = .next u₂ :=
  ⟨_, _, _, _, _, _, rfl, rfl, by decide, rfl, rfl, rfl, rfl, rfl, by decide, rfl, rfl, rfl, rfl⟩

/-- Every kind of case of R90 is reached. -/
theorem witness_SequenceErrorInExactlyTheseCases :
    [((Mode.dec, 7), (0x50000000#32)), ((.dec, 0), 0x60000100), ((.enc, 4), 0x7000001F), ((.enc, 0), 0x80000000),
        ((.enc, 1), 0x90000000)].map
        (fun x => (nextOf (step { holding x.1.1 x.1.2 with pending := [cmdWrite x.2] })).map fun t => t.engine.errSeq) =
      [some true, some true, some true, some true, some true] := by decide

/-- Padding of R91: five zero bits, and one bit that is not zero; and none with four zero bits. -/
theorem witness_PaddingErrorOnlyByDecend :
    [((5 : BitVec 4), (0 : Acc)), (1, 1), (4, 0)].map
        (fun x => (nextOf (step { withEngine (fun e => { e with mode := .dec, nbits := x.1, acc := x.2 }) with
          pending := [cmdWrite 0x80000000] })).map fun t => t.engine.errPad) =
      [some true, some true, some false] := by decide

theorem witness_IllegalCommandOnlyByIllegalWords :
    (nextOf (step (queued [cmdWrite 0xA0000001]))).map (fun t => t.engine.errIll) = some true ∧
      (queued [cmdWrite 0xA0000001]).engine.errIll = false := by decide

theorem witness_RejectedCommandsHaveNoOtherEffect :
    sequenceRejects .decend (holding .enc 4).engine = true ∧ (queued [cmdWrite 0xC0000000]).NextIllegal ∧
      SafeStep (queued [cmdWrite 0xC0000000]) ∧ paddingBad (holding .dec 7).engine = true := by decide

theorem witness_AtMostOneErrorPerCommand :
    (SafeStep (queued [cmdWrite 0xC0000000]) ∧ ¬(queued [cmdWrite 0xC0000000]).NextStartsAfresh ∧
        (queued [cmdWrite 0xC0000000]).NextIllegal) ∧
      (State.nextInstr { holding .enc 3 with pending := [cmdWrite 0x80000000] } = some .decend ∧
        sequenceRejects .decend (holding .enc 3).engine = true) ∧
      (sequenceRejects .decend (holding .dec 5).engine = false ∧ paddingBad (holding .dec 5).engine = true) ∧
      (sequenceRejects .decend (holding .dec 0).engine = false ∧ paddingBad (holding .dec 0).engine = false) := by decide

theorem witness_ErrorBitsAreSticky :
    ¬(queued [cmdWrite 0]).NextStartsAfresh ∧ SafeStep (queued [cmdWrite 0]) ∧
      (queued [cmdWrite 0x10000001]).NextStartsAfresh ∧ (queued [.reset]).NextStartsAfresh := by decide

theorem witness_CauseHoldsTheFirstError :
    State.reset.engine.ErrorsOk ∧ State.reset.engine.cause = none ∧ (State.reset.engine.raise .sequenceError).ErrorsOk ∧
      (State.reset.engine.raise .sequenceError).cause ≠ none ∧ ¬(queued [cmdWrite 0xB0000000]).NextStartsAfresh ∧
      (queued [cmdWrite 0xB0000000]).NextIllegal ∧ SafeStep (queued [cmdWrite 0xB0000000]) ∧
      sequenceRejects .decend ((holding .enc 4).engine.raise .illegalCommand) = true ∧
      paddingBad ((holding .dec 5).engine.raise .illegalCommand) = true ∧
      ¬(queued [cmdWrite 0x80000000]).NextStartsAfresh ∧ (queued [cmdWrite 0x80000000]).nextInstr = some .decend := by decide

theorem witness_StepKeepsRepackerInvariant :
    (holding .dec 7).engine.RepackerOk ∧ (holding .enc 4).engine.RepackerOk ∧
      SafeStep { holding .dec 7 with pending := [cmdWrite 0x7000001F] } ∧
      SafeStep { holding .enc 4 with pending := [cmdWrite 0x7000001F] } ∧
      State.nextInstr { holding .enc 4 with pending := [cmdWrite 0x7000001F] } = some (.dec5 false 31) ∧
      sequenceRejects (.dec5 false 31) (holding .enc 4).engine = true := by decide

theorem witness_StepKeepsOutputAndErrorRecord :
    (holding .enc 4).Inv ∧ SafeStep { holding .enc 4 with pending := [cmdWrite 0x500001FF] } := by decide

/-- An idle repacker other than reset's, for the two repack equivalences. -/
theorem witness_EncodingAndDecodingFromIdle :
    (withEngine fun e => { e with chk := 0x3FFFFFFF, out := ⟨1, 1, 2⟩ }).engine.RepackerOk ∧
      (withEngine fun e => { e with chk := 0x3FFFFFFF, out := ⟨1, 1, 2⟩ }).engine.mode = .idle ∧
      State.reset.engine.errPad = false := by decide

/-- The six groups `2uel5l` of V1. -/
theorem witness_DecodeSequenceVerifiesTheChecksum : ([10, 28, 25, 31, 20, 31] : List Group).length = 6 := by decide

/-- The checksum groups of V1 are accepted with no data (V3), and with a payload bit left over they are not. -/
theorem witness_DecodeAcceptsExactlyValidGroups :
    verifyChecksum .bech32 [0x61] ([] ++ [10, 28, 25, 31, 20, 31]) = true ∧ (leftoverBits []).length < 5 ∧
      true ∈ leftoverBits [1] := by decide

end Sys2Proof.Tests
end

/-! Proofs about the architectural state (10_state.md): the invariant, who writes which field, the error record, and the
register words. Each rests on `exec_eq`, which says once what every command does to the engine, and on `step_engine_eq`, which
says it of every step. -/

namespace Sys2Proof.Machine

/-! ### What a command does to the engine, said once -/

/-- `ACC` with the bits of a byte shifted in (R79). -/
def encAcc (e : Engine) (b : Byte) : Acc := (e.acc <<< 8) ||| b.setWidth 12

/-- The groups an accepted `ENC8` gives out (R79). -/
def enc8Groups (e : Engine) (b : Byte) : List Group := takeGroups (encAcc e b) (e.nbits.toNat + 8)

/-- The groups an accepted `ENCFLUSH` gives out (R80). -/
def flushGroups (e : Engine) : List Group := if e.nbits = 0 then [] else [padGroup e.acc e.nbits.toNat]

/-- `ACC` with the bits of a group shifted in (R81). -/
def decAcc (e : Engine) (g : Group) : Acc := (e.acc <<< 5) ||| g.setWidth 12

/-- How many bits an accepted `DEC5` leaves in `ACC` (R81). -/
def dec5Left (e : Engine) : Nat := if 8 ≤ e.nbits.toNat + 5 then e.nbits.toNat + 5 - 8 else e.nbits.toNat + 5

/-- What an accepted `DEC5` leaves in `OUT` (R81). -/
def dec5Out (e : Engine) (g : Group) : Out :=
  if 8 ≤ e.nbits.toNat + 5 then outOfByte ((decAcc e g).extractLsb' (e.nbits.toNat + 5 - 8) 8) else ⟨0, 0, 0⟩

/-- Raise an error, if there is one (R89). -/
def Engine.record (k : Option EngineError) (e : Engine) : Engine := k.elim e fun k => e.raise k

@[simp] theorem Engine.record_chk (k : Option EngineError) (e : Engine) : (e.record k).chk = e.chk := by cases k <;> rfl
@[simp] theorem Engine.record_variant (k : Option EngineError) (e : Engine) : (e.record k).variant = e.variant := by cases k <;> rfl
@[simp] theorem Engine.record_acc (k : Option EngineError) (e : Engine) : (e.record k).acc = e.acc := by cases k <;> rfl
@[simp] theorem Engine.record_nbits (k : Option EngineError) (e : Engine) : (e.record k).nbits = e.nbits := by cases k <;> rfl
@[simp] theorem Engine.record_mode (k : Option EngineError) (e : Engine) : (e.record k).mode = e.mode := by cases k <;> rfl
@[simp] theorem Engine.record_sum (k : Option EngineError) (e : Engine) : (e.record k).sum = e.sum := by cases k <;> rfl
@[simp] theorem Engine.record_out (k : Option EngineError) (e : Engine) : (e.record k).out = e.out := by cases k <;> rfl
@[simp] theorem Engine.record_vok (k : Option EngineError) (e : Engine) : (e.record k).vok = e.vok := by cases k <;> rfl

@[simp] theorem Engine.record_errIll (k : Option EngineError) (e : Engine) :
    (e.record k).errIll = (e.errIll || decide (k = some .illegalCommand)) := by
  cases k with
  | none => simp [Engine.record]
  | some k => cases k <;> simp [Engine.record]

@[simp] theorem Engine.record_errSeq (k : Option EngineError) (e : Engine) :
    (e.record k).errSeq = (e.errSeq || decide (k = some .sequenceError)) := by
  cases k with
  | none => simp [Engine.record]
  | some k => cases k <;> simp [Engine.record]

@[simp] theorem Engine.record_errPad (k : Option EngineError) (e : Engine) :
    (e.record k).errPad = (e.errPad || decide (k = some .paddingError)) := by
  cases k with
  | none => simp [Engine.record]
  | some k => cases k <;> simp [Engine.record]

@[simp] theorem Engine.record_cause (k : Option EngineError) (e : Engine) : (e.record k).cause = e.cause.or k := by
  cases k with
  | none => exact (Option.or_none).symm
  | some k => rfl

theorem Engine.record_cause_eq (k : Option EngineError) (e : Engine) :
    (e.record k).cause = if e.cause = none then k else e.cause := by
  rw [Engine.record_cause]
  cases e.cause <;> rfl

/-- The engine after a command that is not rejected for sequence: the rule of its row, with `OUT` cleared first (R60). -/
def accepted (i : Instr) (e : Engine) : Engine :=
  match i with
  | .nop => e.clearOut
  | .init v => { Engine.reset with variant := v }
  | .poly g => { e.clearOut with chk := polyStep e.chk g }
  | .hrph c => { e.clearOut with chk := polyStep e.chk (highPart c) }
  | .hrpl c => { e.clearOut with chk := polyStep e.chk (lowPart c) }
  | .enc8 p b =>
    ((e.clearOut.feedback p (enc8Groups e b)).give (outOfGroups (enc8Groups e b))).hold .enc (encAcc e b)
      (bitsLeft (e.nbits.toNat + 8))
  | .encflush p => ((e.clearOut.feedback p (flushGroups e)).give (outOfGroups (flushGroups e))).emptyRepacker
  | .dec5 p g => ((e.clearOut.feedback p [g]).give (dec5Out e g)).hold .dec (decAcc e g) (dec5Left e)
  | .decend => (e.clearOut.record (if paddingBad e then some .paddingError else none)).emptyRepacker
  | .fin =>
    { e.clearOut with
      chk := polyFeed e.chk (List.replicate 6 0)
      sum := polyFeed e.chk (List.replicate 6 0) ^^^ variantConst e.variant }
  | .verify => { e.clearOut with vok := checksumOk e }

/-- The engine after a command (R60): rejected for sequence (R88), or accepted. -/
def execEngine (i : Instr) (e : Engine) : Engine :=
  if sequenceRejects i e then e.clearOut.raise .sequenceError else accepted i e

/-- The helper is the model's meaning of every command. -/
theorem exec_eq (i : Instr) (s : State) : exec i s = .next { s with engine := execEngine i s.engine } := by
  cases i with
  | nop | init | poly | hrph | hrpl | verify => rfl
  | enc8 p b | encflush p =>
    simp only [exec, execEnc8, execEncflush, command_eq, execEngine, sequenceRejects, beq_iff_eq]
    rfl
  | fin =>
    simp only [exec, execFin, command_eq, execEngine, sequenceRejects, Bool.and_eq_true, beq_iff_eq, bne_iff_ne]
    rfl
  | dec5 p g =>
    simp only [exec, execDec5, command_eq, execEngine, accepted, sequenceRejects, beq_iff_eq, dec5Out, dec5Left]
    by_cases hn : 8 ≤ s.engine.nbits.toNat + 5
    · simp only [Engine.clearOut_nbits, hn, if_true]; rfl
    · simp only [Engine.clearOut_nbits, hn, if_false]; cases p <;> rfl
  | decend =>
    simp only [exec, execDecend, command_eq, execEngine, accepted, sequenceRejects, beq_iff_eq]
    by_cases hm : s.engine.mode = .enc
    · simp [hm]
    · rcases hp : paddingBad s.engine with _ | _
      · have hb : ¬(5 ≤ s.engine.nbits.toNat ∨ s.engine.acc ≠ 0) := by simpa [paddingBad, hm] using hp
        simp only [Engine.clearOut_mode, Engine.clearOut_nbits, Engine.clearOut_acc, hm, hb, if_false]
        rfl
      · have hb : 5 ≤ s.engine.nbits.toNat ∨ s.engine.acc ≠ 0 := by simpa [paddingBad, hm] using hp
        simp only [Engine.clearOut_mode, Engine.clearOut_nbits, Engine.clearOut_acc, hm, hb, if_false, if_true]
        rfl

theorem exec_engine {i : Instr} {s t : State} (h : exec i s = .next t) : t.engine = execEngine i s.engine := by
  rw [exec_eq] at h
  cases h
  rfl

theorem execEngine_rejected {i : Instr} {e : Engine} (h : sequenceRejects i e = true) :
    execEngine i e = e.clearOut.raise .sequenceError := by simp [execEngine, h]

theorem execEngine_accepted {i : Instr} {e : Engine} (h : sequenceRejects i e = false) :
    execEngine i e = accepted i e := by simp [execEngine, h]

/-- What a step does to the engine, with the command's effect written out. -/
theorem step_engine_eq {s t : State} (h : step s = .next t) :
    (s.nextReset = true ∧ s.nextInstr = none ∧ ¬s.NextIllegal ∧ t.engine = Engine.reset) ∨
      (s.nextReset = false ∧ s.nextInstr = none ∧ ¬s.NextIllegal ∧ t.engine = s.engine) ∨
      (s.nextReset = false ∧ s.nextInstr = none ∧ s.NextIllegal ∧ t.engine = s.engine.clearOut.raise .illegalCommand) ∨
      (∃ i, s.nextReset = false ∧ s.nextInstr = some i ∧ ¬s.NextIllegal ∧ t.engine = execEngine i s.engine) := by
  rcases step_engine_cases h with hr | hn | hi | ⟨i, hr, hi, hl, s', hs, he⟩
  · exact .inl hr
  · exact .inr (.inl hn)
  · exact .inr (.inr (.inl hi))
  · exact .inr (.inr (.inr ⟨i, hr, hi, hl, by rw [exec_engine he, hs]⟩))

/-- A property of the engine that holds after reset, and that illegal words and commands keep, is kept by every step. -/
theorem step_keeps {P : Engine → Prop} (reset : P Engine.reset)
    (illegal : ∀ e, P e → P (e.clearOut.raise .illegalCommand)) (command : ∀ i e, P e → P (execEngine i e))
    {s t : State} (hs : P s.engine) (h : step s = .next t) : P t.engine := by
  rcases step_engine_eq h with ⟨-, -, -, e⟩ | ⟨-, -, -, e⟩ | ⟨-, -, -, e⟩ | ⟨i, -, -, -, e⟩ <;> rw [e]
  · exact reset
  · exact hs
  · exact illegal _ hs
  · exact command i _ hs

/-! ### The repacker's invariant (R21) -/

/-- How many bits the repacker may hold in a direction (R21). -/
def Mode.capacity : Mode → Nat
  | .idle => 0
  | .enc => 4
  | .dec => 7

theorem Mode.capacity_le (m : Mode) : m.capacity ≤ 7 := by cases m <;> decide

theorem repackerOk_iff (e : Engine) :
    e.RepackerOk ↔ e.acc.toNat < 2 ^ e.nbits.toNat ∧ e.nbits.toNat ≤ e.mode.capacity := by
  cases hm : e.mode <;> simp [Engine.RepackerOk, Mode.capacity, hm]

theorem hold_repackerOk {m : Mode} {n : Nat} (hn : n ≤ m.capacity) (a : Acc) (e : Engine) : (e.hold m a n).RepackerOk := by
  have h7 := m.capacity_le
  have hn' : n % 2 ^ 4 = n := Nat.mod_eq_of_lt (by omega)
  rw [repackerOk_iff]
  simp only [Engine.hold_acc, Engine.hold_nbits, Engine.hold_mode, lowBits_toNat, BitVec.toNat_ofNat, hn']
  exact ⟨Nat.mod_lt _ (Nat.two_pow_pos n), hn⟩

theorem emptyRepacker_repackerOk (e : Engine) : e.emptyRepacker.RepackerOk := by
  simp [repackerOk_iff, Mode.capacity]

/-- `ENC8` is accepted only where at most 4 bits are held. -/
theorem nbits_le_of_not_dec {e : Engine} (h : e.RepackerOk) (hm : e.mode ≠ .dec) : e.nbits.toNat ≤ 4 := by
  obtain ⟨-, hidle, henc, -⟩ := h
  cases hc : e.mode with
  | idle => rw [hidle hc]; decide
  | enc => exact henc hc
  | dec => exact absurd hc hm

theorem nbits_le_seven {e : Engine} (h : e.RepackerOk) : e.nbits.toNat ≤ 7 :=
  ((repackerOk_iff e).mp h).2.trans e.mode.capacity_le

theorem dec5Left_le {e : Engine} (h : e.RepackerOk) : dec5Left e ≤ 7 := by
  have := nbits_le_seven h
  unfold dec5Left
  split <;> omega

/-- An accepted command keeps R21: those that write the repacker hold few enough bits, the others leave it alone. -/
theorem accepted_repackerOk (i : Instr) {e : Engine} (h : e.RepackerOk) : (accepted i e).RepackerOk := by
  cases i with
  | nop | poly | hrph | hrpl | fin | verify => exact h
  | init v => exact emptyRepacker_repackerOk { Engine.reset with variant := v }
  | enc8 p b =>
    refine hold_repackerOk ?_ _ _
    rw [bitsLeft_eq_mod]
    exact Nat.le_of_lt_succ (Nat.mod_lt _ (by decide))
  | dec5 p g => exact hold_repackerOk (dec5Left_le h) _ _
  | encflush | decend => exact emptyRepacker_repackerOk _

theorem execEngine_repackerOk (i : Instr) (e : Engine) (h : e.RepackerOk) : (execEngine i e).RepackerOk := by
  unfold execEngine
  split
  · exact h
  · exact accepted_repackerOk i h

/-- Settles O52: R21 is kept by every step, and a rejected command only raises its error. -/
theorem stepKeepsRepackerInvariant : Obligations.StepKeepsRepackerInvariant := by
  refine ⟨emptyRepacker_repackerOk Engine.reset, fun s t hs h => ?_, fun s t h hrej => ?_⟩
  · exact step_keeps (P := Engine.RepackerOk) (emptyRepacker_repackerOk Engine.reset) (fun _ he => he)
      execEngine_repackerOk hs h
  · rcases step_engine_eq h with ⟨-, hn, hl, -⟩ | ⟨-, hn, hl, -⟩ | ⟨-, -, -, e⟩ | ⟨i, -, hi, hl, e⟩
    · simp [hl, hn] at hrej
    · simp [hl, hn] at hrej
    · rw [e]
      exact ⟨rfl, rfl, rfl⟩
    · have hr : sequenceRejects i s.engine = true := by simpa [hl, hi] using hrej
      rw [e, execEngine_rejected hr]
      exact ⟨rfl, rfl, rfl⟩

/-! ### What stands in `OUT` (R23) -/

theorem outOfGroups_cnt (gs : List Group) : (outOfGroups gs).cnt = BitVec.ofNat 2 gs.length := by cases gs <;> rfl

/-- One or two groups given out fill `OUT` within its ranges. -/
theorem outOfGroups_ok {gs : List Group} (h : gs.length ≤ 2) : (outOfGroups gs).Ok := by
  match gs, h with
  | [], _ => decide
  | [g], _ => simp [outOfGroups, Out.Ok]
  | [g, g'], _ =>
    have hd1 : (g'.setWidth 8).toNat < 32 := by
      rw [BitVec.toNat_setWidth]
      exact (Nat.mod_le _ _).trans_lt g'.isLt
    exact ⟨le_rfl, hd1, fun h => absurd h (lt_irrefl 2), fun h => absurd h (by simp [outOfGroups])⟩

theorem outZero_ok : Out.Ok ⟨0, 0, 0⟩ := by decide

theorem outOfByte_ok (b : Byte) : (outOfByte b).Ok := by simp [outOfByte, Out.Ok]

theorem flushGroups_length_le (e : Engine) : (flushGroups e).length ≤ 1 := by
  unfold flushGroups
  split <;> simp

/-- `ENC8` gives out one or two groups in every state that meets R21. -/
theorem enc8Groups_length {e : Engine} (h : e.RepackerOk) (hm : e.mode ≠ .dec) (b : Byte) :
    (enc8Groups e b).length = 1 ∨ (enc8Groups e b).length = 2 := by
  have := nbits_le_of_not_dec h hm
  rw [enc8Groups, takeGroups_length]
  omega

theorem dec5Out_cnt (e : Engine) (g : Group) : (dec5Out e g).cnt = 0 ∨ (dec5Out e g).cnt = 1 := by
  unfold dec5Out
  split
  · exact .inr rfl
  · exact .inl rfl

theorem dec5Out_ok (e : Engine) (g : Group) : (dec5Out e g).Ok := by
  unfold dec5Out
  split
  · exact outOfByte_ok _
  · exact outZero_ok

/-- What an accepted command leaves in `OUT`. -/
theorem accepted_out (i : Instr) (e : Engine) :
    (accepted i e).out =
      match i with
      | .enc8 _ b => outOfGroups (enc8Groups e b)
      | .encflush _ => outOfGroups (flushGroups e)
      | .dec5 _ g => dec5Out e g
      | .nop | .init _ | .poly _ | .hrph _ | .hrpl _ | .decend | .fin | .verify => ⟨0, 0, 0⟩ := by
  cases i <;> simp [accepted, Engine.reset]

theorem accepted_out_ok {i : Instr} {e : Engine} (h : e.RepackerOk) (hr : sequenceRejects i e = false) :
    (accepted i e).out.Ok := by
  rw [accepted_out]
  cases i with
  | enc8 p b =>
    have hm : e.mode ≠ .dec := by simpa [sequenceRejects] using hr
    have := enc8Groups_length h hm b
    exact outOfGroups_ok (by omega)
  | encflush p => exact outOfGroups_ok ((flushGroups_length_le e).trans (by decide))
  | dec5 p g => exact dec5Out_ok e g
  | nop | init | poly | hrph | hrpl | decend | fin | verify => exact outZero_ok

theorem execEngine_out_ok (i : Instr) {e : Engine} (h : e.RepackerOk) : (execEngine i e).out.Ok := by
  rcases hr : sequenceRejects i e with _ | _
  · rw [execEngine_accepted hr]
    exact accepted_out_ok h hr
  · rw [execEngine_rejected hr]
    exact outZero_ok

/-- Settles O42: the ranges of `OUT` and, for each command, how many values it gives out. -/
theorem outHoldsTheLastCommandsOutput : Obligations.OutHoldsTheLastCommandsOutput := by
  refine ⟨fun i s t hs h => ?_, fun s t hl h => ?_⟩
  · obtain ⟨-, -, hd1, hd0⟩ := execEngine_out_ok i hs
    rw [exec_engine h]
    refine ⟨hd1, hd0, fun hr => by rw [execEngine_rejected hr]; rfl, fun hr => ?_⟩
    have hout := accepted_out i s.engine
    rw [execEngine_accepted hr]
    cases i with
    | enc8 p b =>
      have hm : s.engine.mode ≠ .dec := by simpa [sequenceRejects] using hr
      rw [hout, outOfGroups_cnt]
      rcases enc8Groups_length hs hm b with hn | hn <;> rw [hn]
      · exact .inl rfl
      · exact .inr rfl
    | encflush p =>
      rw [hout, outOfGroups_cnt]
      rcases Nat.le_one_iff_eq_zero_or_eq_one.mp (flushGroups_length_le s.engine) with hn | hn <;> rw [hn]
      · exact .inl rfl
      · exact .inr rfl
    | dec5 p g =>
      rw [hout]
      exact dec5Out_cnt _ g
    | nop | init | poly | hrph | hrpl | decend | fin | verify => exact hout
  · rcases step_engine_eq h with ⟨-, -, hn, -⟩ | ⟨-, -, hn, -⟩ | ⟨-, -, -, e⟩ | ⟨i, -, -, hn, -⟩
    · exact absurd hl hn
    · exact absurd hl hn
    · rw [e]
      rfl
    · exact absurd hl hn

/-! ### The record of errors (R26, R27, R89) -/

/-- The error a command raises: for sequence (R90), for padding (R91), or none. -/
def commandError (i : Instr) (e : Engine) : Option EngineError :=
  if sequenceRejects i e then some .sequenceError
  else if i = .decend ∧ paddingBad e = true then some .paddingError
  else none

/-- The error the next step raises, if it raises one. -/
def State.nextError (s : State) : Option EngineError :=
  match s.nextInstr with
  | some i => commandError i s.engine
  | none => if s.NextIllegal then some .illegalCommand else none

/-- Two engines hold the same error bits and `CAUSE`. -/
structure Engine.SameErrors (e e' : Engine) : Prop where
  errIll : e'.errIll = e.errIll
  errSeq : e'.errSeq = e.errSeq
  errPad : e'.errPad = e.errPad
  cause : e'.cause = e.cause

theorem Engine.SameErrors.errorsOk {e e' : Engine} (h : e.SameErrors e') (he : e.ErrorsOk) : e'.ErrorsOk := by
  simpa only [Engine.ErrorsOk, h.errIll, h.errSeq, h.errPad, h.cause] using he

theorem record_errorsOk (k : Option EngineError) {e : Engine} (h : e.ErrorsOk) : (e.record k).ErrorsOk := by
  cases k with
  | none => exact h
  | some k => exact raise_errorsOk k h

/-- A command other than `INIT` adds its own error to the record, and nothing else. -/
theorem execEngine_sameErrors {i : Instr} (hi : ∀ v, i ≠ .init v) (e : Engine) :
    (e.record (commandError i e)).SameErrors (execEngine i e) := by
  rcases hr : sequenceRejects i e with _ | _
  · rw [execEngine_accepted hr]
    cases i with
    | init v => exact absurd rfl (hi v)
    | decend => constructor <;> simp [accepted, commandError, hr]
    | nop | poly | hrph | hrpl | enc8 | encflush | dec5 | fin | verify =>
      constructor <;> simp [accepted, commandError, hr]
  · have hk : commandError i e = some .sequenceError := by simp [commandError, hr]
    rw [execEngine_rejected hr, hk]
    exact ⟨rfl, rfl, rfl, rfl⟩

theorem not_init_of_not_startsAfresh {s : State} {i : Instr} (h : ¬s.NextStartsAfresh) (hi : s.nextInstr = some i)
    (v : Variant) : i ≠ .init v := by
  rintro rfl
  cases v <;> simp [State.NextStartsAfresh, hi] at h

theorem nextError_of_illegal {s : State} (h : s.NextIllegal) : s.nextError = some .illegalCommand := by
  simp only [State.nextError, h.2, if_pos h]

theorem nextError_of_instr {s : State} {i : Instr} (h : s.nextInstr = some i) :
    s.nextError = commandError i s.engine := by
  simp only [State.nextError, h]

theorem nextError_of_none {s : State} (h : s.nextInstr = none) (hl : ¬s.NextIllegal) : s.nextError = none := by
  simp only [State.nextError, h, if_neg hl]

/-- What a step that does not start afresh adds to the error record. -/
theorem step_sameErrors {s t : State} (h : step s = .next t) (hf : ¬s.NextStartsAfresh) :
    (s.engine.record s.nextError).SameErrors t.engine := by
  rcases step_engine_eq h with ⟨hr, -, -, -⟩ | ⟨-, hn, hl, e⟩ | ⟨-, -, hl, e⟩ | ⟨i, -, hi, -, e⟩
  · exact absurd (.inl hr) hf
  · rw [e, nextError_of_none hn hl]
    exact ⟨rfl, rfl, rfl, rfl⟩
  · rw [e, nextError_of_illegal hl]
    exact ⟨rfl, rfl, rfl, rfl⟩
  · rw [e, nextError_of_instr hi]
    exact execEngine_sameErrors (not_init_of_not_startsAfresh hf hi) _

/-- A legal `INIT` or a reset leaves an engine that is reset but for its variant. -/
theorem step_startsAfresh {s t : State} (h : step s = .next t) (hf : s.NextStartsAfresh) :
    ∃ v, t.engine = { Engine.reset with variant := v } := by
  rcases step_engine_eq h with ⟨-, -, -, e⟩ | ⟨hr, hn, -, -⟩ | ⟨hr, hn, -, -⟩ | ⟨i, hr, hi, -, e⟩
  · exact ⟨.bech32, e⟩
  · simp [State.NextStartsAfresh, hr, hn] at hf
  · simp [State.NextStartsAfresh, hr, hn] at hf
  · have hv : i = .init .bech32 ∨ i = .init .bech32m := by simpa [State.NextStartsAfresh, hr, hi] using hf
    rcases hv with rfl | rfl <;> exact ⟨_, e⟩

theorem execEngine_errorsOk (i : Instr) {e : Engine} (h : e.ErrorsOk) : (execEngine i e).ErrorsOk := by
  by_cases hi : ∃ v, i = .init v
  · obtain ⟨v, rfl⟩ := hi
    simp [execEngine, sequenceRejects, accepted, Engine.reset, Engine.ErrorsOk]
  · exact (execEngine_sameErrors (not_exists.mp hi) e).errorsOk (record_errorsOk _ h)

/-- Settles O22, by evaluating the one state. -/
theorem resetMeetsTheInvariant : Obligations.ResetMeetsTheInvariant := by
  unfold Obligations.ResetMeetsTheInvariant
  decide

/-- Settles O53: each part of the invariant is kept by illegal words and by every command. -/
theorem stepKeepsOutputAndErrorRecord : Obligations.StepKeepsOutputAndErrorRecord := by
  intro s t hs h
  refine step_keeps (P := fun e => e.RepackerOk ∧ e.out.Ok ∧ e.ErrorsOk) resetMeetsTheInvariant.1 ?_ ?_ hs h
  · rintro e ⟨hrep, -, herr⟩
    exact ⟨hrep, outZero_ok, raise_errorsOk _ herr⟩
  · rintro i e ⟨hrep, -, herr⟩
    exact ⟨execEngine_repackerOk i e hrep, execEngine_out_ok i hrep, execEngine_errorsOk i herr⟩

/-- Settles O50: a step adds at most one error to the record, or starts afresh. -/
theorem errorBitsAreSticky : Obligations.ErrorBitsAreSticky := by
  intro s t h
  refine ⟨fun hf => ?_, fun hf => ?_⟩
  · obtain ⟨hill, hseq, hpad, -⟩ := step_sameErrors h hf
    exact ⟨fun hb => by simp [hill, hb], fun hb => by simp [hseq, hb], fun hb => by simp [hpad, hb]⟩
  · obtain ⟨v, e⟩ := step_startsAfresh h hf
    rw [e]
    exact ⟨rfl, rfl, rfl⟩

theorem commandError_of_rejected {i : Instr} {e : Engine} (h : sequenceRejects i e = true) :
    commandError i e = some .sequenceError := by simp [commandError, h]

/-- Bad padding and a rejection for sequence exclude each other. -/
theorem commandError_of_paddingBad {e : Engine} (h : paddingBad e = true) :
    commandError .decend e = some .paddingError := by
  have hm : e.mode ≠ .enc := fun hm => by simp [paddingBad, hm] at h
  simp [commandError, sequenceRejects, hm, h]

/-- Settles O51: the record after a step is the record before it with the step's own error added. -/
theorem causeHoldsTheFirstError : Obligations.CauseHoldsTheFirstError := by
  intro s t hok h hf
  obtain ⟨hill, hseq, hpad, hcause⟩ := step_sameErrors h hf
  refine ⟨fun hc => ⟨?_, fun hl => ?_, fun i hi hr => ?_, fun hi hp => ?_⟩, fun hc => ?_⟩
  · rw [hcause, Engine.record_cause_eq, if_neg hc]
  · simp [hill, nextError_of_illegal hl]
  · simp [hseq, nextError_of_instr hi, commandError_of_rejected hr]
  · simp [hpad, nextError_of_instr hi, commandError_of_paddingBad hp]
  · obtain ⟨hi0, hs0, hp0⟩ := hok.1.mp hc
    simp [hill, hseq, hpad, hcause, hc, hi0, hs0, hp0]

/-! ### Who writes what -/

theorem execEngine_variant (i : Instr) (e : Engine) :
    (execEngine i e).variant = match i with
      | .init v => v
      | .nop | .poly _ | .hrph _ | .hrpl _ | .enc8 _ _ | .encflush _ | .dec5 _ _ | .decend | .fin | .verify =>
        e.variant := by
  cases i <;> simp [execEngine, accepted, apply_ite Engine.variant, sequenceRejects]

/-- `SUM` after a command (R22). -/
theorem execEngine_sum (i : Instr) (e : Engine) :
    (execEngine i e).sum = match i with
      | .init _ => 0
      | .fin => if sequenceRejects .fin e then e.sum else polyFeed e.chk (List.replicate 6 0) ^^^ variantConst e.variant
      | .nop | .poly _ | .hrph _ | .hrpl _ | .enc8 _ _ | .encflush _ | .dec5 _ _ | .decend | .verify => e.sum := by
  cases i <;> simp [execEngine, accepted, apply_ite Engine.sum, sequenceRejects, Engine.reset]

/-- `STATUS.VOK` after a command (R25). -/
theorem execEngine_vok (i : Instr) (e : Engine) :
    (execEngine i e).vok = match i with
      | .init _ => false
      | .verify => checksumOk e
      | .nop | .poly _ | .hrph _ | .hrpl _ | .enc8 _ _ | .encflush _ | .dec5 _ _ | .decend | .fin => e.vok := by
  cases i <;> simp [execEngine, accepted, apply_ite Engine.vok, sequenceRejects, Engine.reset]

theorem checksumOk_iff (e : Engine) : checksumOk e = true ↔ e.chk = variantConst e.variant := beq_iff_eq

theorem checksumOk_eq_decide (e : Engine) : checksumOk e = decide (e.chk = variantConst e.variant) := by
  rw [Bool.eq_iff_iff, checksumOk_iff, decide_eq_true_iff]

/-- Settles O39: no command but `INIT` writes `VARIANT`, and `FIN` and `VERIFY` use its constant. -/
theorem variantIsWrittenOnlyByInitAndReset : Obligations.VariantIsWrittenOnlyByInitAndReset := by
  refine ⟨fun s t h hv => ?_, fun s t h ha => ?_, fun s t h => ?_, rfl, rfl⟩
  · rcases step_engine_eq h with ⟨hr, -, -, -⟩ | ⟨-, -, -, e⟩ | ⟨-, -, -, e⟩ | ⟨i, -, hi, -, e⟩
    · exact .inl hr
    · exact absurd (by rw [e]) hv
    · exact absurd (by rw [e]; rfl) hv
    · right
      rw [e, execEngine_variant] at hv ⊢
      cases i with
      | init v => exact hi
      | nop | poly | hrph | hrpl | enc8 | encflush | dec5 | decend | fin | verify => exact absurd rfl hv
  · have hr : sequenceRejects .fin s.engine = false := by simpa [sequenceRejects] using ha
    rw [exec_engine h, execEngine_accepted hr]
    rfl
  · rw [exec_engine h, execEngine_vok]
    exact checksumOk_iff _

/-- Settles O40, by what the next event is. -/
theorem sumIsWrittenOnlyByFinInitAndReset : Obligations.SumIsWrittenOnlyByFinInitAndReset := by
  intro s t h
  rcases step_engine_eq h with ⟨hr, -, -, e⟩ | ⟨hr, hn, -, e⟩ | ⟨hr, hn, -, e⟩ | ⟨i, hr, hi, -, e⟩
  · simp [hr, e, Engine.reset]
  · simp [hr, hn, e]
  · simp [hr, hn, e]
  · simp only [hr, hi, e, execEngine_sum]
    cases i <;> rfl

/-- Settles O41, by what the next event is; `VERIFY` raises no error. -/
theorem vokIsWrittenOnlyByVerifyInitAndReset : Obligations.VokIsWrittenOnlyByVerifyInitAndReset := by
  intro s t h
  rcases step_engine_eq h with ⟨hr, hn, -, e⟩ | ⟨hr, hn, -, e⟩ | ⟨hr, hn, -, e⟩ | ⟨i, hr, hi, -, e⟩
  · simp [hr, hn, e, Engine.reset]
  · simp [hr, hn, e]
  · simp [hr, hn, e]
  · refine ⟨?_, fun hv => ?_⟩
    · simp only [hr, hi, e, execEngine_vok, checksumOk_eq_decide]
      cases i <;> rfl
    · obtain rfl : i = .verify := Option.some.inj (hi.symm.trans hv)
      rw [e]
      exact ⟨rfl, rfl, rfl, rfl⟩

/-! ### What a command reads (R29, R31) -/

/-- Two engines agree on the fields the commands read: `CHK`, `VARIANT` and the repacker. -/
structure Engine.SameInputs (e e' : Engine) : Prop where
  chk : e.chk = e'.chk
  variant : e.variant = e'.variant
  acc : e.acc = e'.acc
  nbits : e.nbits = e'.nbits
  mode : e.mode = e'.mode

namespace Engine.SameInputs

variable {e e' : Engine} (h : e.SameInputs e')
include h

theorem sequenceRejects_eq (i : Instr) : sequenceRejects i e = sequenceRejects i e' := by
  cases i <;> simp only [sequenceRejects, h.mode, h.nbits]

theorem paddingBad_eq : paddingBad e = paddingBad e' := by
  simp only [paddingBad, h.mode, h.nbits, h.acc]

theorem commandError_eq (i : Instr) : commandError i e = commandError i e' := by
  simp only [commandError, h.sequenceRejects_eq, h.paddingBad_eq]

theorem checksumOk_eq : checksumOk e = checksumOk e' := by
  simp only [checksumOk, h.chk, h.variant]

theorem encAcc_eq (b : Byte) : encAcc e b = encAcc e' b := by simp only [encAcc, h.acc]

theorem decAcc_eq (g : Group) : decAcc e g = decAcc e' g := by simp only [decAcc, h.acc]

theorem enc8Groups_eq (b : Byte) : enc8Groups e b = enc8Groups e' b := by
  simp only [enc8Groups, h.encAcc_eq, h.nbits]

theorem flushGroups_eq : flushGroups e = flushGroups e' := by
  simp only [flushGroups, h.acc, h.nbits]

theorem dec5Left_eq : dec5Left e = dec5Left e' := by simp only [dec5Left, h.nbits]

theorem dec5Out_eq (g : Group) : dec5Out e g = dec5Out e' g := by
  simp only [dec5Out, h.decAcc_eq, h.nbits]

theorem accepted_out_eq (i : Instr) : (accepted i e).out = (accepted i e').out := by
  simp only [accepted_out, h.enc8Groups_eq, h.flushGroups_eq, h.dec5Out_eq]

/-- A command's results in these fields depend on nothing else. -/
theorem accepted_sameInputs (i : Instr) : (accepted i e).SameInputs (accepted i e') := by
  cases i with
  | nop | poly | hrph | hrpl | fin | verify =>
    constructor <;> simp [accepted, h.chk, h.variant, h.acc, h.nbits, h.mode]
  | init v => exact ⟨rfl, rfl, rfl, rfl, rfl⟩
  | enc8 p b => constructor <;> simp [accepted, h.enc8Groups_eq, h.encAcc_eq, h.chk, h.variant, h.nbits]
  | encflush p => constructor <;> simp [accepted, h.flushGroups_eq, h.chk, h.variant]
  | dec5 p g => constructor <;> simp [accepted, h.decAcc_eq, h.dec5Left_eq, h.chk, h.variant]
  | decend => constructor <;> simp [accepted, h.chk, h.variant]

theorem execEngine_sameInputs (i : Instr) :
    (execEngine i e).SameInputs (execEngine i e') ∧
      (execEngine i e).out = (execEngine i e').out := by
  rcases hr : sequenceRejects i e with _ | _
  · have hr' := h.sequenceRejects_eq i ▸ hr
    rw [execEngine_accepted hr, execEngine_accepted hr']
    exact ⟨h.accepted_sameInputs i, h.accepted_out_eq i⟩
  · have hr' := h.sequenceRejects_eq i ▸ hr
    rw [execEngine_rejected hr, execEngine_rejected hr']
    exact ⟨⟨h.chk, h.variant, h.acc, h.nbits, h.mode⟩, rfl⟩

end Engine.SameInputs

/-- Settles O43: what a command writes is a function of the five fields, and its own error is the `k` of both records. -/
theorem commandsIgnoreErrorsAndResults : Obligations.CommandsIgnoreErrorsAndResults := by
  intro i s₁ s₂ t₁ t₂ hchk hvar hacc hnb hmode h₁ h₂
  have h : s₁.engine.SameInputs s₂.engine := ⟨hchk, hvar, hacc, hnb, hmode⟩
  obtain ⟨⟨hc, hv, ha, hn, hm⟩, ho⟩ := h.execEngine_sameInputs i
  rw [exec_engine h₁, exec_engine h₂]
  refine ⟨⟨hc, hv, ha, hn, hm, ho⟩, fun hvok => ?_, fun hsum => ?_, ?_, fun hi => ?_⟩
  · rw [execEngine_vok, execEngine_vok]
    cases i with
    | verify => exact h.checksumOk_eq
    | init v => rfl
    | nop | poly | hrph | hrpl | enc8 | encflush | dec5 | decend | fin => simpa using hvok
  · rw [execEngine_sum, execEngine_sum]
    cases i with
    | fin =>
      rw [← h.sequenceRejects_eq, ← hchk, ← hvar]
      rcases hsum with ⟨-, hfin⟩ | hsum
      · have hr : sequenceRejects .fin s₁.engine = false := by simpa [sequenceRejects] using hfin
        simp [hr]
      · rw [hsum]
    | init v => rfl
    | nop | poly | hrph | hrpl | enc8 | encflush | dec5 | decend | verify => simpa using hsum
  · rintro ⟨v, rfl⟩
    rfl
  · refine ⟨commandError i s₁.engine, fun s t hst => ?_⟩
    obtain ⟨hx, hk⟩ : exec i s = .next t ∧ commandError i s.engine = commandError i s₁.engine := by
      rcases hst with ⟨rfl, rfl⟩ | ⟨rfl, rfl⟩
      · exact ⟨h₁, rfl⟩
      · exact ⟨h₂, (h.commandError_eq i).symm⟩
    obtain ⟨hill, hseq, hpad, hcause⟩ := execEngine_sameErrors hi s.engine
    rw [exec_engine hx, hill, hseq, hpad, hcause, hk]
    exact ⟨Engine.record_errIll _ _, Engine.record_errSeq _ _, Engine.record_errPad _ _, Engine.record_cause_eq _ _⟩

/-! ### The host's side, and the values of `INIT` -/

/-- Settles O19, by the ways a step can answer a next state. -/
theorem eachStepServesOneLineInOrder : Obligations.EachStepServesOneLineInOrder := by
  intro s t ev rest hp h
  rcases step_cases h with ⟨hp', -⟩ | ⟨r', hp', rfl⟩ | ⟨r, r', hp', rfl⟩ | ⟨r, w, r', hp', -, rfl⟩ | ⟨w, r', hp', hw⟩ <;>
    rw [hp] at hp' <;> cases hp'
  · exact ⟨rfl, rfl, .inl rfl⟩
  · exact ⟨rfl, rfl, .inr ⟨_, _, _, rfl, rfl⟩⟩
  · exact ⟨rfl, rfl, .inl rfl⟩
  · obtain ⟨e, he⟩ := execWord_next w (s.advance rest)
    rw [he] at hw
    cases hw
    exact ⟨rfl, rfl, .inl rfl⟩

/-- Settles O20: `INIT` writes every field of the engine, whatever it held. -/
theorem resetAndInitLeaveTheResetValues : Obligations.ResetAndInitLeaveTheResetValues :=
  ⟨rfl, fun s => ⟨exec_eq _ s, exec_eq _ s⟩⟩

/-! ### The register words (R23, R24) -/

/-- A field reads back at its own bits. -/
theorem extractLsb'_field_same {w lo : Nat} (v : BitVec w) (h : lo + w ≤ 32) : (field lo v).extractLsb' lo w = v := by
  ext i hi
  have hlo : lo + i < 32 := by omega
  simp [field, hi, hlo]

/-- A field is 0 at bits it does not reach. -/
theorem extractLsb'_field_disjoint {w lo start len : Nat} (v : BitVec w) (h : start + len ≤ lo ∨ lo + w ≤ start) :
    (field lo v).extractLsb' start len = 0 := by
  ext i hi
  simp only [field, BitVec.getElem_extractLsb', BitVec.getLsbD_shiftLeft, BitVec.getLsbD_setWidth]
  rcases h with h | h
  · have hlo : start + i < lo := by omega
    simp [hlo]
  · rw [BitVec.getLsbD_of_ge v _ (by omega)]
    simp

/-- The bits of a field. -/
theorem getElem_field {w : Nat} (lo : Nat) (v : BitVec w) {i : Nat} (hi : i < 32) :
    (field lo v)[i] = (decide (lo ≤ i) && v.getLsbD (i - lo)) := by
  by_cases h : lo ≤ i
  · have hn : ¬i < lo := by omega
    simp [field, h, hn]
  · have hn : i < lo := by omega
    simp [field, h, hn]

theorem statusWord_causeField (e : Engine) : (statusWord e).extractLsb' 8 4 = causeCode e.cause := by
  simp [statusWord, BitVec.extractLsb'_or, extractLsb'_field_same, extractLsb'_field_disjoint]

theorem statusWord_modeField (e : Engine) : (statusWord e).extractLsb' 16 2 = e.mode.code := by
  simp [statusWord, BitVec.extractLsb'_or, extractLsb'_field_same, extractLsb'_field_disjoint]

theorem statusWord_variantBit (e : Engine) : (statusWord e).getLsbD 1 = variantFlag e.variant := by
  simp [statusWord, getElem_field]

/-- Settles O23: the fields of `STATUS` do not overlap, so each reads back alone. -/
theorem statusWordHasTheFieldsOfTheTable : Obligations.StatusWordHasTheFieldsOfTheTable := by
  intro e
  refine ⟨?vok, ?variant, ?_, ?errIll, ?errSeq, ?errPad, ?bit7, ?cause, ?_, ?mode, ?_, ?_, ?_⟩
  case vok | errIll | errSeq | errPad | bit7 => simp [statusWord, getElem_field]
  case variant =>
    rw [statusWord_variantBit]
    cases e.variant <;> decide
  case cause =>
    rw [statusWord_causeField]
    rcases e.cause with _ | k
    · rfl
    · cases k <;> rfl
  case mode =>
    rw [statusWord_modeField]
    cases e.mode <;> rfl
  all_goals simp [statusWord, BitVec.extractLsb'_or, extractLsb'_field_same, extractLsb'_field_disjoint]

theorem outWord_eq_fields (o : Out) : outWord o = field 16 o.cnt ||| field 8 o.d1 ||| field 0 o.d0 := by
  ext i hi
  simp only [outWord, BitVec.getElem_setWidth, BitVec.getLsbD_append, BitVec.getElem_or, getElem_field]
  rcases Nat.lt_or_ge i 8 with h8 | h8
  · have hn8 : ¬8 ≤ i := by omega
    have hn16 : ¬16 ≤ i := by omega
    simp [h8, hn8, hn16]
  · have hd0 : o.d0.getLsbD i = false := BitVec.getLsbD_of_ge o.d0 i h8
    rcases Nat.lt_or_ge i 16 with h16 | h16
    · have hn : ¬16 ≤ i := by omega
      have hd1 : i - 8 < 8 := by omega
      simp [Nat.not_lt.mpr h8, hn, hd1, h8]
    · have hd1 : o.d1.getLsbD (i - 8) = false := BitVec.getLsbD_of_ge o.d1 _ (by omega)
      have hn : ¬i - 8 < 8 := by omega
      simp [Nat.not_lt.mpr h8, hn, h16, hd0, hd1, Nat.sub_sub]

/-- Settles O24: the three fields of `OUT` do not overlap. -/
theorem outWordHasItsThreeFields : Obligations.OutWordHasItsThreeFields := by
  intro o
  rw [outWord_eq_fields]
  refine ⟨?_, ?_, ?_, ?_⟩ <;>
    simp [BitVec.extractLsb'_or, extractLsb'_field_same, extractLsb'_field_disjoint]

end Sys2Proof.Machine

/-! Proofs about the host's accesses and the register window (20_memory.md). Each rests on `step_read` and `step_writeIgnored`,
which say once what an access at a register's offset does, or on `step_access`, which says that every access goes through
`withReg`. -/

namespace Sys2Proof.Machine

/-! ### What an access at a register's offset does -/

/-- A 4-byte read at a register's offset returns its word (R34, R39). -/
theorem step_read {s : State} {r : Reg} {rest : List HostEvent} (h : s.pending = .read (regOffset r) 4 :: rest) :
    step s = .next ((s.advance rest).returned (regWord r s.engine)) := by
  rw [step_serves h]
  exact withReg_regOffset r _

/-- A 4-byte write at the offset of a register other than `CMD` only takes the host's line (R36, R37). -/
theorem step_writeIgnored {s : State} {r : Reg} {w : Word} {rest : List HostEvent} (hr : r ≠ .cmd)
    (h : s.pending = .write (regOffset r) 4 w :: rest) : step s = .next (s.advance rest) := by
  rw [step_serves h]
  exact (withReg_regOffset r _).trans (writeReg_ignored hr w _)

/-- A read that completes is a 4-byte read at a register's offset. -/
theorem eq_regOffset_of_step_read {s t : State} {off : Int} {size : Nat} {rest : List HostEvent}
    (hp : s.pending = .read off size :: rest) (h : step s = .next t) :
    ∃ r, off = regOffset r ∧ size = 4 ∧ t = (s.advance rest).returned (regWord r s.engine) := by
  rcases step_cases h with ⟨hp', -⟩ | ⟨_, hp', -⟩ | ⟨r, _, hp', ht⟩ | ⟨_, _, _, hp', -⟩ | ⟨_, _, hp', -⟩ <;>
    rw [hp] at hp' <;> cases hp'
  exact ⟨r, rfl, rfl, ht⟩

/-- A write that reaches a register completes, whichever the register and whatever the word. -/
theorem writeReg_next (r : Reg) (w : Word) (s : State) : ∃ t, writeReg r w s = .next t := by
  by_cases hr : r = .cmd
  · subst hr
    obtain ⟨e, he⟩ := execWord_next w s
    exact ⟨_, he⟩
  · exact ⟨_, writeReg_ignored hr w s⟩

/-! ### Which accesses are accepted (R33, R35) -/

theorem mem_windowRegs (r : Reg) : r ∈ windowRegs := by cases r <;> decide

/-- An access goes through the window's checks, and a register it reaches answers a next state. -/
theorem step_access {s : State} {rest : List HostEvent} {address size : Nat} {ev : HostEvent}
    (hev : ev = readAt address size ∨ ∃ v, ev = writeAt address size v) (hp : s.pending = ev :: rest) :
    ∃ k : Reg → Result, (∀ r, ∃ t, k r = .next t) ∧
      step s = withReg ((address : Int) - Config.engineBase) size k := by
  rw [step_serves hp]
  rcases hev with rfl | ⟨w, rfl⟩
  · exact ⟨_, fun r => ⟨_, rfl⟩, rfl⟩
  · exact ⟨_, fun r => writeReg_next r w _, rfl⟩

theorem withReg_next_iff {offset : Int} {size : Nat} {k : Reg → Result} (hk : ∀ r, ∃ t, k r = .next t) :
    (∃ t, withReg offset size k = .next t) ↔ size = 4 ∧ ∃ r, offset = regOffset r := by
  constructor
  · rintro ⟨t, h⟩
    rcases withReg_cases offset size k with ⟨-, e⟩ | ⟨-, -, e⟩ | ⟨-, -, -, e⟩ | ⟨r, hs, ho, -⟩
    · cases e.symm.trans h
    · cases e.symm.trans h
    · cases e.symm.trans h
    · exact ⟨hs, r, ho⟩
  · rintro ⟨rfl, r, rfl⟩
    rw [withReg_regOffset]
    exact hk r

theorem regOffset_bounds (r : Reg) : regOffset r % 4 = 0 ∧ regOffset r < 0x20 := by cases r <;> decide

theorem withReg_refused {offset : Int} {size : Nat} (k : Reg → Result) (h : size ≠ 4 ∨ offset % 4 ≠ 0) :
    ∃ why, withReg offset size k = .refused why := by
  rcases withReg_cases offset size k with ⟨-, e⟩ | ⟨-, -, e⟩ | ⟨hs, ha, -, -⟩ | ⟨r, hs, ho, -⟩
  · exact ⟨_, e⟩
  · exact ⟨_, e⟩
  · exact absurd h (by simp [hs, ha])
  · have hr := (regOffset_bounds r).1
    omega

theorem withReg_outsideWindow {offset : Int} (k : Reg → Result) (ha : offset % 4 = 0)
    (ho : offset < 0 ∨ 0x20 ≤ offset) : withReg offset 4 k = .fault .outsideWindow := by
  rcases withReg_cases offset 4 k with ⟨hs, -⟩ | ⟨-, hm, -⟩ | ⟨-, -, -, e⟩ | ⟨r, -, hr, -⟩
  · exact absurd rfl hs
  · exact absurd ha hm
  · exact e
  · have hlt := (regOffset_bounds r).2
    omega

/-- `ENGINE_BASE` is 32-byte aligned (R5), so an address and its offset are aligned together. -/
theorem offset_emod_four (address : Nat) : ((address : Int) - Config.engineBase) % 4 = ((address % 4 : Nat) : Int) := by
  unfold Config.engineBase
  omega

/-! ### The obligations -/

/-- Settles O13: the eight offsets and words are those of the window's registers. -/
theorem readReturnsTheRegisterOfItsOffset : Obligations.ReadReturnsTheRegisterOfItsOffset := by
  intro s rest off v hmem hp
  obtain ⟨r, -, hr⟩ :=
    List.mem_map.mp (show (off, v) ∈ windowRegs.map fun r => ((regOffset r : Int), regWord r s.engine) from hmem)
  cases hr
  exact step_read hp

/-- Settles O15: the writes by their registers, and every other step by the ways it can answer a next state. -/
theorem onlyCmdWritesAndResetChangeTheEngine : Obligations.OnlyCmdWritesAndResetChangeTheEngine := by
  refine ⟨fun s rest off v hmem hp => ?_, fun s t h hne => ?_⟩
  · obtain ⟨r, hr, rfl⟩ := List.mem_map.mp
      (show off ∈ [Reg.status, .out, .sum, .chk, .acc].map fun r => (regOffset r : Int) from hmem)
    exact step_writeIgnored (ne_of_mem_of_not_mem hr (by decide)) hp
  · rcases step_cases h with ⟨-, rfl⟩ | ⟨rest, hp, -⟩ | ⟨_, _, -, rfl⟩ | ⟨_, _, _, -, -, rfl⟩ | ⟨w, rest, hp, -⟩
    · exact absurd rfl hne
    · exact ⟨rest, .inl hp⟩
    · exact absurd rfl hne
    · exact absurd rfl hne
    · exact ⟨rest, .inr ⟨w, hp⟩⟩

/-- Settles O10: the word's command is executed at the state with the host's line taken. -/
theorem stepRunsDecodedCommand : Obligations.StepRunsDecodedCommand := by
  intro s rest w i hp hd
  rw [step_cmdWrite hp, execWord, hd]
  rfl

/-- The host's list that writes the word of `POLY 1` to `CMD` twice. -/
def polyTwice : State := { State.reset with pending := [.write 0 4 0x20000001, .write 0 4 0x20000001] }

/-- The first `POLY 1` leaves `CHK` at `0x21`, the second at `0x421`. -/
theorem polyTwice_steps :
    ∃ t u, step polyTwice = .next t ∧ step t = .next u ∧ t.engine.chk = 0x21 ∧ u.engine.chk = 0x421 := by
  have hd : decode 0x20000001 = .ok (.poly 1) := by decide
  refine ⟨_, _, stepRunsDecodedCommand _ _ _ _ rfl hd, stepRunsDecodedCommand _ _ _ _ rfl hd, ?_, ?_⟩ <;> decide

/-- Settles O16: a read keeps the engine, which is all a command sees; `POLY 1` written twice feeds two groups. -/
theorem readsHaveNoSideEffect : Obligations.ReadsHaveNoSideEffect := by
  refine ⟨fun s t off size rest hp h => ?_, fun s t u off size rest hp ht hu => ?_, ?_⟩
  · obtain ⟨r, -, -, rfl⟩ := eq_regOffset_of_step_read hp h
    exact ⟨rfl, fun i => by rw [exec_eq, exec_eq]; rfl⟩
  · obtain ⟨r, rfl, rfl, rfl⟩ := eq_regOffset_of_step_read hp ht
    rw [step_read (r := r) (rest := rest) rfl] at hu
    cases hu
    exact ⟨_, rfl, rfl⟩
  · obtain ⟨t, u, ht, hu, htc, huc⟩ := polyTwice_steps
    refine ⟨polyTwice, t, u, 0x20000001, [], rfl, ht, hu, fun he => ?_⟩
    rw [he, htc] at huc
    exact absurd huc (by decide)

/-- Settles O17: an accepted address is the base plus a register's offset, and the base is 4-byte aligned. -/
theorem onlyAlignedWordAccessesAreAccepted : Obligations.OnlyAlignedWordAccessesAreAccepted := by
  intro s rest address size ev hev hp
  obtain ⟨k, hk, hstep⟩ := step_access hev hp
  rw [hstep]
  refine ⟨(withReg_next_iff hk).trans (and_congr_right fun _ => ?_),
    fun h => withReg_refused k (h.imp_right fun ha => ?_)⟩
  · change _ ↔ ∃ off ∈ windowRegs.map regOffset, address = Config.engineBase + off
    simp only [List.mem_map, mem_windowRegs, true_and, exists_exists_eq_and]
    exact exists_congr fun r => by omega
  · rw [offset_emod_four]
    exact_mod_cast ha

/-- Settles O18: no register stands at a negative offset or at one of 0x20 or more. -/
theorem alignedAccessOutsideTheWindowFaults : Obligations.AlignedAccessOutsideTheWindowFaults := by
  intro s rest address ev hev hp ha hout
  obtain ⟨k, -, hstep⟩ := step_access hev hp
  rw [hstep]
  exact withReg_outsideWindow k (by rw [offset_emod_four, ha]; rfl) (by omega)

/-- Settles O14: the three registers that read 0, two of which ignore a write. -/
theorem cmdAndReservedOffsetsReadZero : Obligations.CmdAndReservedOffsetsReadZero := by
  refine fun s rest off => ⟨fun hmem hp => ?_, fun v hmem hp => ?_⟩
  · obtain ⟨r, hr, rfl⟩ := List.mem_map.mp
      (show off ∈ [Reg.cmd, .reserved18, .reserved1C].map fun r => (regOffset r : Int) from hmem)
    have hz : regWord r s.engine = 0 := by fin_cases hr <;> rfl
    rw [step_read hp, hz]
    rfl
  · obtain ⟨r, hr, rfl⟩ := List.mem_map.mp
      (show off ∈ [Reg.reserved18, .reserved1C].map fun r => (regOffset r : Int) from hmem)
    exact step_writeIgnored (ne_of_mem_of_not_mem hr (by decide)) hp

end Sys2Proof.Machine

/-! Proofs about the decoder, the encoder and the assembler (30_encoding.md). Each rests on `Mnemonic.encodes_iff`, which reads a
row of R54 as one condition for each field of R49, and on `decode_eq_ok_iff`, which says that a word decodes by the one row it
matches. -/

namespace Sys2Proof

/-! ### The fields of a word (R49) -/

/-- A word is its four fields, `OP ++ RSV ++ P ++ D` (R49). -/
theorem word_eq_append_fields (w : Word) : w = opField w ++ rsvField w ++ BitVec.ofBool (pField w) ++ dField w := by
  have hp : BitVec.ofBool (pField w) = w.extractLsb' 8 1 := by
    ext i hi
    obtain rfl : i = 0 := by omega
    simp [pField]
  have h₁ : opField w ++ rsvField w = w.extractLsb' 9 23 := BitVec.extractLsb'_append_extractLsb'_eq_extractLsb' rfl
  have h₂ : w.extractLsb' 9 23 ++ w.extractLsb' 8 1 = w.extractLsb' 8 24 :=
    BitVec.extractLsb'_append_extractLsb'_eq_extractLsb' rfl
  have h₃ : w.extractLsb' 8 24 ++ w.extractLsb' 0 8 = w.extractLsb' 0 32 :=
    BitVec.extractLsb'_append_extractLsb'_eq_extractLsb' rfl
  rw [h₁, hp, h₂, dField, h₃, BitVec.extractLsb'_eq_self]

theorem word_eq_iff_fields {v w : Word} :
    v = w ↔ opField v = opField w ∧ rsvField v = rsvField w ∧ pField v = pField w ∧ dField v = dField w := by
  refine ⟨fun h => by simp [h], fun ⟨hop, hrsv, hp, hd⟩ => ?_⟩
  rw [word_eq_append_fields v, word_eq_append_fields w, hop, hrsv, hp, hd]

@[simp] theorem opField_and (v w : Word) : opField (v &&& w) = opField v &&& opField w := BitVec.extractLsb'_and
@[simp] theorem rsvField_and (v w : Word) : rsvField (v &&& w) = rsvField v &&& rsvField w := BitVec.extractLsb'_and
@[simp] theorem pField_and (v w : Word) : pField (v &&& w) = (pField v && pField w) := BitVec.getLsbD_and
@[simp] theorem dField_and (v w : Word) : dField (v &&& w) = dField v &&& dField w := BitVec.extractLsb'_and

@[simp] theorem opField_or (v w : Word) : opField (v ||| w) = opField v ||| opField w := BitVec.extractLsb'_or
@[simp] theorem rsvField_or (v w : Word) : rsvField (v ||| w) = rsvField v ||| rsvField w := BitVec.extractLsb'_or
@[simp] theorem pField_or (v w : Word) : pField (v ||| w) = (pField v || pField w) := BitVec.getLsbD_or
@[simp] theorem dField_or (v w : Word) : dField (v ||| w) = dField v ||| dField w := BitVec.extractLsb'_or

@[simp] theorem opField_commandWord (op : BitVec 4) (p : Bool) (d : Byte) : opField (commandWord op p d) = op :=
  calc (commandWord op p d).extractLsb' 28 4
    _ = (op ++ 0#19 ++ BitVec.ofBool p).extractLsb' 20 4 := BitVec.extractLsb'_append_eq_of_le (by decide)
    _ = (op ++ 0#19).extractLsb' 19 4 := BitVec.extractLsb'_append_eq_of_le (by decide)
    _ = op := BitVec.extractLsb'_append_eq_left

@[simp] theorem rsvField_commandWord (op : BitVec 4) (p : Bool) (d : Byte) : rsvField (commandWord op p d) = 0 :=
  calc (commandWord op p d).extractLsb' 9 19
    _ = (op ++ 0#19 ++ BitVec.ofBool p).extractLsb' 1 19 := BitVec.extractLsb'_append_eq_of_le (by decide)
    _ = (op ++ 0#19).extractLsb' 0 19 := BitVec.extractLsb'_append_eq_of_le (by decide)
    _ = 0 := BitVec.extractLsb'_append_eq_right

@[simp] theorem pField_commandWord (op : BitVec 4) (p : Bool) (d : Byte) : pField (commandWord op p d) = p := by
  simp only [pField, commandWord, BitVec.getLsbD_append]
  simp

@[simp] theorem dField_commandWord (op : BitVec 4) (p : Bool) (d : Byte) : dField (commandWord op p d) = d :=
  BitVec.extractLsb'_append_eq_right

theorem eq_commandWord_of_rsvField {w : Word} (h : rsvField w = 0) : w = commandWord (opField w) (pField w) (dField w) :=
  word_eq_iff_fields.mpr (by simp [h])

theorem setWidth_eq_commandWord (d : Byte) : d.setWidth 32 = commandWord 0 false d :=
  (BitVec.setWidth_eq_append (by decide)).trans (BitVec.cast_eq rfl _)

/-- The fields of a command word do not overlap. -/
theorem commandWord_eq_or (op : BitVec 4) (p : Bool) (d : Byte) :
    commandWord op p d = commandWord op false 0 ||| (if p then 0x100#32 else 0#32) ||| d.setWidth 32 := by
  have hp : (if p then 0x100#32 else 0#32) = commandWord 0 p 0 := by cases p <;> rfl
  rw [hp, setWidth_eq_commandWord, word_eq_iff_fields]
  simp

/-! ### The rows of R54 by their fields -/

/-- The opcode of a row, `OP` of its pattern (R50, R54). -/
def Mnemonic.opcode (m : Mnemonic) : BitVec 4 := opField m.row.pattern

/-- How many low bits of `D` a form's operand uses (R52). -/
def Form.width : Form → Nat
  | .none => 0
  | .variant => 1
  | .group => 5
  | .char => 8
  | .byte => 8

/-- A `D` that meets its form's constraint of R52: no bit is set above those the operand uses. -/
abbrev Form.Fits (f : Form) (d : Byte) : Prop := d.toNat < 2 ^ f.width

theorem Form.fits_iff_and_eq_zero (f : Form) (d : Byte) : d &&& (BitVec.allOnes 8 <<< f.width) = 0 ↔ f.Fits d := by
  cases f <;> revert d <;> decide

/-- The pattern of a row is its opcode and nothing else. -/
theorem Mnemonic.pattern_eq (m : Mnemonic) : m.row.pattern = commandWord m.opcode false 0 := by cases m <;> rfl

/-- The mask of a row fixes `OP`, `RSV`, `P` where the row has no feedback, and the bits of `D` its operand does not use. -/
theorem Mnemonic.mask_fields (m : Mnemonic) :
    opField m.row.mask = BitVec.allOnes 4 ∧ rsvField m.row.mask = BitVec.allOnes 19 ∧
      pField m.row.mask = !m.takesFeedback ∧ dField m.row.mask = BitVec.allOnes 8 <<< m.form.width := by
  cases m <;> decide

/-- What a row asks of a word, field by field: its opcode, `RSV = 0` (R53), `P = 1` only with feedback (R51), and the
constraint of its form on `D` (R52). -/
theorem Mnemonic.encodes_iff (m : Mnemonic) (w : Word) :
    m.row.encodes w = true ↔
      opField w = m.opcode ∧ rsvField w = 0 ∧ (pField w = true → m.takesFeedback = true) ∧ m.form.Fits (dField w) := by
  obtain ⟨hop, hrsv, hp, hd⟩ := m.mask_fields
  have hfeed : (pField w && !m.takesFeedback) = false ↔ (pField w = true → m.takesFeedback = true) := by
    cases pField w <;> simp
  rw [Row.encodes, beq_iff_eq, m.pattern_eq, word_eq_iff_fields]
  simp only [opField_and, rsvField_and, pField_and, dField_and, hop, hrsv, hp, hd, BitVec.and_allOnes,
    opField_commandWord, rsvField_commandWord, pField_commandWord, dField_commandWord, hfeed, Form.fits_iff_and_eq_zero]

@[simp] theorem Mnemonic.row_mnemonic (m : Mnemonic) : m.row.mnemonic = m := by cases m <;> rfl

theorem mem_opcodeTable {r : Row} : r ∈ opcodeTable ↔ ∃ m : Mnemonic, m.row = r := by
  refine ⟨fun h => ?_, ?_⟩
  · obtain ⟨m, -, hm⟩ := List.mem_map.mp h
    exact ⟨m, hm⟩
  · rintro ⟨m, rfl⟩
    cases m <;> decide

/-- No two rows have the same opcode. -/
theorem Mnemonic.opcode_injective : Function.Injective Mnemonic.opcode := by
  intro m n h
  have hrows : ∀ r₁ ∈ opcodeTable, ∀ r₂ ∈ opcodeTable, opField r₁.pattern = opField r₂.pattern → r₁ = r₂ := by decide
  have hr := hrows _ (mem_opcodeTable.mpr ⟨m, rfl⟩) _ (mem_opcodeTable.mpr ⟨n, rfl⟩) h
  simpa using congrArg Row.mnemonic hr

/-- R54: "No word matches two rows." -/
theorem Mnemonic.eq_of_encodes {m n : Mnemonic} {w : Word} (hm : m.row.encodes w = true) (hn : n.row.encodes w = true) :
    m = n :=
  opcode_injective (((m.encodes_iff w).mp hm).1.symm.trans ((n.encodes_iff w).mp hn).1)

/-- Every opcode up to 0xA has a row (R50, R57). -/
theorem exists_opcode_eq {op : BitVec 4} (h : op.toNat ≤ 0xA) : ∃ m : Mnemonic, m.opcode = op := by
  have hrows : ∀ op : BitVec 4, op.toNat ≤ 0xA → ∃ r ∈ opcodeTable, opField r.pattern = op := by decide
  obtain ⟨r, hr, hop⟩ := hrows op h
  obtain ⟨m, rfl⟩ := mem_opcodeTable.mp hr
  exact ⟨m, hop⟩

theorem Mnemonic.opcode_le (m : Mnemonic) : m.opcode.toNat ≤ 0xA := by cases m <;> decide

/-! ### Decoding (R60) -/

/-- A word decodes by the row it matches, since it matches no other. -/
theorem decode_of_encodes {m : Mnemonic} {w : Word} (h : m.row.encodes w = true) : decode w = .ok (instrOfRow m w) := by
  have hfind : opcodeTable.find? (fun r => r.encodes w) = some m.row := by
    rcases hf : opcodeTable.find? (fun r => r.encodes w) with _ | r
    · exact absurd h (List.find?_eq_none.mp hf _ (mem_opcodeTable.mpr ⟨m, rfl⟩))
    · obtain ⟨n, rfl⟩ := mem_opcodeTable.mp (List.mem_of_find?_eq_some hf)
      have hn : n.row.encodes w = true := List.find?_some (p := fun r : Row => r.encodes w) hf
      rw [Mnemonic.eq_of_encodes h hn]
      exact hf
  rw [decode, hfind]
  exact congrArg (fun n => Except.ok (instrOfRow n w)) m.row_mnemonic

theorem decode_eq_ok_iff {w : Word} {i : Instr} :
    decode w = .ok i ↔ ∃ m : Mnemonic, m.row.encodes w = true ∧ instrOfRow m w = i := by
  refine ⟨fun h => ?_, ?_⟩
  · rcases hf : opcodeTable.find? (fun r => r.encodes w) with _ | r
    · simp [decode, hf] at h
    · obtain ⟨m, rfl⟩ := mem_opcodeTable.mp (List.mem_of_find?_eq_some hf)
      have hm : m.row.encodes w = true := List.find?_some (p := fun r : Row => r.encodes w) hf
      exact ⟨m, hm, Except.ok.inj ((decode_of_encodes hm).symm.trans h)⟩
  · rintro ⟨m, hm, rfl⟩
    exact decode_of_encodes hm

theorem decodes_iff_encodes {w : Word} : (∃ i, decode w = .ok i) ↔ ∃ m : Mnemonic, m.row.encodes w = true := by
  simp only [decode_eq_ok_iff]
  exact ⟨fun ⟨_, m, hm, _⟩ => ⟨m, hm⟩, fun ⟨m, hm⟩ => ⟨_, m, hm, rfl⟩⟩

/-- A word is legal exactly when it matches a row (R55). -/
theorem decodes_iff_matches {w : Word} : (∃ i, decode w = .ok i) ↔ ∃ r ∈ opcodeTable, w &&& r.mask = r.pattern := by
  simp only [decodes_iff_encodes, mem_opcodeTable, exists_exists_eq_and, Row.encodes, beq_iff_eq]

theorem decode_error_iff {w : Word} : (∃ why, decode w = .error why) ↔ ¬∃ i, decode w = .ok i := by
  rcases decode w with why | i <;> simp

/-! ### Encoding (R49, R62) -/

theorem extractLsb'_setWidth_group (g : Group) : (g.setWidth 8).extractLsb' 0 5 = g := by
  ext i hi
  have hi8 : i < 8 := by omega
  simp [hi8, hi]

/-- A row's operand read back from the word of its command. -/
theorem instrOfRow_encode (i : Instr) : instrOfRow i.mnemonic (encode i) = i := by
  cases i with
  | nop | decend | fin | verify => rfl
  | init v => cases v <;> rfl
  | poly | hrph | hrpl | enc8 | encflush | dec5 =>
    simp [instrOfRow, Instr.mnemonic, encode, extractLsb'_setWidth_group]

/-- The word of a command matches its own row (R62). -/
theorem encodes_encode (i : Instr) : i.mnemonic.row.encodes (encode i) = true := by
  cases i with
  | nop => exact Laws.EncodeFitsRow.nop
  | init v => exact Laws.EncodeFitsRow.init v
  | poly g => exact Laws.EncodeFitsRow.poly g
  | hrph c => exact Laws.EncodeFitsRow.hrph c
  | hrpl c => exact Laws.EncodeFitsRow.hrpl c
  | enc8 p b => exact Laws.EncodeFitsRow.enc8 p b
  | encflush p => exact Laws.EncodeFitsRow.encflush p
  | dec5 p g => exact Laws.EncodeFitsRow.dec5 p g
  | decend => exact Laws.EncodeFitsRow.decend
  | fin => exact Laws.EncodeFitsRow.fin
  | verify => exact Laws.EncodeFitsRow.verify

/-- Settles O2: the word matches the command's own row, and the row reads the operand back. -/
theorem decodeOfEncodeIsTheInstruction : Obligations.DecodeOfEncodeIsTheInstruction := fun i =>
  (decode_of_encodes (encodes_encode i)).trans (congrArg Except.ok (instrOfRow_encode i))

/-- Settles O1: each word is its command's own, so `decodeOfEncodeIsTheInstruction` decodes it. -/
theorem decodedWordsOfEachFamily : Obligations.DecodedWordsOfEachFamily :=
  have h := decodeOfEncodeIsTheInstruction
  ⟨h .nop, h (.init .bech32m), h (.poly 31), h (.hrph 0x61), h (.hrpl 0x61), h (.enc8 true 0xA5), h (.encflush true),
    h (.dec5 true 21), h .decend, h .fin, h .verify⟩

/-- A `D` that fits its form is rebuilt from its operand alone. -/
theorem setWidth_extractLsb'_of_fits {d : Byte} (h : Form.group.Fits d) : (d.extractLsb' 0 5).setWidth 8 = d := by
  revert d
  decide

theorem setWidth_variantBit_of_fits {d : Byte} (h : Form.variant.Fits d) :
    BitVec.setWidth 8 (BitVec.ofBool (variantOfBit (d.getLsbD 0)).bit) = d := by
  revert d
  decide

theorem eq_zero_of_fits_none {d : Byte} (h : Form.none.Fits d) : d = 0 := BitVec.eq_of_toNat_eq (Nat.lt_one_iff.mp h)

/-- The command a row reads from a word encodes to the fields that were read, none dropped. -/
theorem encode_instrOfRow {m : Mnemonic} {w : Word} (hp : pField w = true → m.takesFeedback = true)
    (hd : m.form.Fits (dField w)) : encode (instrOfRow m w) = commandWord m.opcode (pField w) (dField w) := by
  have hp0 : m.takesFeedback = false → pField w = false := fun hm => by simpa [hm] using hp
  cases m with
  | NOP | DECEND | FIN | VERIFY => rw [hp0 rfl, eq_zero_of_fits_none hd]; rfl
  | ENCFLUSH => rw [eq_zero_of_fits_none hd]; rfl
  | INIT => rw [hp0 rfl]; exact congrArg (commandWord 0x1 false) (setWidth_variantBit_of_fits hd)
  | POLY => rw [hp0 rfl]; exact congrArg (commandWord 0x2 false) (setWidth_extractLsb'_of_fits hd)
  | DEC5 => exact congrArg (commandWord 0x7 _) (setWidth_extractLsb'_of_fits hd)
  | HRPH | HRPL => rw [hp0 rfl]; rfl
  | ENC8 => rfl

/-- Settles O3: a legal word has `RSV = 0`, and its command's word has its other three fields. -/
theorem encodeOfDecodeIsTheWord : Obligations.EncodeOfDecodeIsTheWord := by
  intro w i h
  obtain ⟨m, hm, rfl⟩ := decode_eq_ok_iff.mp h
  obtain ⟨hop, hrsv, hp, hd⟩ := (m.encodes_iff w).mp hm
  rw [encode_instrOfRow hp hd, ← hop, ← eq_commandWord_of_rsvField hrsv]

/-- Settles O6: a row's opcode is the `OP` of every word it matches. -/
theorem noWordMatchesTwoRows : Obligations.NoWordMatchesTwoRows := by
  intro w r₁ r₂ h₁ h₂ hw₁ hw₂
  obtain ⟨m, rfl⟩ := mem_opcodeTable.mp h₁
  obtain ⟨n, rfl⟩ := mem_opcodeTable.mp h₂
  rw [Mnemonic.eq_of_encodes (beq_iff_eq.mpr hw₁) (beq_iff_eq.mpr hw₂)]

/-! ### Legal words by R51, R52 and R53 -/

/-- The constraints of R55 on the fields of a legal word. -/
structure FieldRules (w : Word) : Prop where
  rsv : w.extractLsb' 9 19 = 0
  opcode : (w.extractLsb' 28 4).toNat ≤ 0xA
  feedback : w.getLsbD 8 = true → (w.extractLsb' 28 4).toNat ∈ [5, 6, 7]
  noOperand : (w.extractLsb' 28 4).toNat ∈ [0, 6, 8, 9, 10] → w.extractLsb' 0 8 = 0
  variant : (w.extractLsb' 28 4).toNat = 1 → w.extractLsb' 1 7 = 0
  group : (w.extractLsb' 28 4).toNat ∈ [2, 7] → w.extractLsb' 5 3 = 0

theorem Mnemonic.opcode_mem_feedback (m : Mnemonic) : m.opcode.toNat ∈ [5, 6, 7] ↔ m.takesFeedback = true := by
  cases m <;> decide
theorem Mnemonic.opcode_mem_none (m : Mnemonic) : m.opcode.toNat ∈ [0, 6, 8, 9, 10] ↔ m.form = .none := by
  cases m <;> decide
theorem Mnemonic.opcode_eq_one (m : Mnemonic) : m.opcode.toNat = 1 ↔ m.form = .variant := by cases m <;> decide
theorem Mnemonic.opcode_mem_group (m : Mnemonic) : m.opcode.toNat ∈ [2, 7] ↔ m.form = .group := by cases m <;> decide

/-- The unused high bits of `D` are bits of the word. -/
theorem Form.fits_dField_iff (f : Form) (w : Word) : f.Fits (dField w) ↔ w.extractLsb' f.width (8 - f.width) = 0 := by
  have hd : ∀ d : Byte, f.Fits d ↔ d.extractLsb' f.width (8 - f.width) = 0 := by cases f <;> decide
  have hw : f.width + (8 - f.width) ≤ 8 := by cases f <;> decide
  rw [hd, dField, BitVec.extractLsb'_extractLsb'_of_le hw]

/-- The constraint of the form, as R55 lists it. -/
theorem Form.fits_iff_rules (f : Form) (w : Word) :
    f.Fits (dField w) ↔
      (f = .none → w.extractLsb' 0 8 = 0) ∧ (f = .variant → w.extractLsb' 1 7 = 0) ∧
        (f = .group → w.extractLsb' 5 3 = 0) := by
  rw [f.fits_dField_iff]
  cases f <;> simp [Form.width]

/-- The row of a word's opcode matches the word exactly when it meets the constraints of R55. -/
theorem Mnemonic.encodes_iff_fieldRules {m : Mnemonic} {w : Word} (hop : w.extractLsb' 28 4 = m.opcode) :
    m.row.encodes w = true ↔ FieldRules w := by
  rw [m.encodes_iff, Form.fits_iff_rules, ← m.opcode_mem_feedback, ← m.opcode_mem_none, ← m.opcode_eq_one,
    ← m.opcode_mem_group, ← hop]
  exact ⟨fun ⟨_, hrsv, hp, hn, hv, hg⟩ => ⟨hrsv, hop ▸ m.opcode_le, hp, hn, hv, hg⟩,
    fun ⟨hrsv, _, hp, hn, hv, hg⟩ => ⟨rfl, hrsv, hp, hn, hv, hg⟩⟩

theorem decodes_iff_fieldRules {w : Word} : (∃ i, decode w = .ok i) ↔ FieldRules w := by
  rw [decodes_iff_encodes]
  refine ⟨fun ⟨m, hm⟩ => (Mnemonic.encodes_iff_fieldRules ((m.encodes_iff w).mp hm).1).mp hm, fun h => ?_⟩
  obtain ⟨m, hop⟩ := exists_opcode_eq h.opcode
  exact ⟨m, (Mnemonic.encodes_iff_fieldRules hop.symm).mpr h⟩

/-- Settles O4: by the rows, and by the fields each row asks for. -/
theorem legalWordsAreTheTablesRows : Obligations.LegalWordsAreTheTablesRows := by
  refine fun w => ⟨decodes_iff_matches, fun h => ?_⟩
  obtain ⟨hrsv, hop, hp, hn, hv, hg⟩ := decodes_iff_fieldRules.mp h
  exact ⟨hrsv, hop, hp, hn, hv, hg⟩

/-- Settles O5: the row of the word's opcode matches it. -/
theorem wordsMeetingTheFieldRulesAreLegal : Obligations.WordsMeetingTheFieldRulesAreLegal := by
  intro w hrsv hop hp hn hv hg
  obtain ⟨i, hi⟩ := decodes_iff_fieldRules.mpr ⟨hrsv, hop, hp, hn, hv, hg⟩
  exact ⟨i, hi, encodeOfDecodeIsTheWord w i hi⟩

/-! ### Well-formed lines of the assembler (R62) -/

/-- The number a line's operand stands for, 0 where there is none. -/
def AsmCommand.value (c : AsmCommand) : Nat := (c.operand.map Operand.value).getD 0

/-- The word R62's table gives a line: the pattern of the mnemonic's row, bit 8 for the suffix, and the operand's value. -/
def AsmCommand.word (c : AsmCommand) : Word :=
  c.mnemonic.row.pattern ||| (if c.suffixP then 0x100#32 else 0#32) ||| BitVec.ofNat 32 c.value

theorem Form.bound_le_two_pow (f : Form) : f.bound ≤ 2 ^ f.width := by cases f <;> decide
theorem Form.two_pow_width_le (f : Form) : 2 ^ f.width ≤ 256 := by cases f <;> decide

theorem AsmCommand.wellFormed_iff (c : AsmCommand) :
    c.wellFormed = true ↔
      (c.suffixP = true → c.mnemonic.takesFeedback = true) ∧ c.mnemonic.form.accepts c.operand = true := by
  rw [AsmCommand.wellFormed, Bool.and_eq_true]
  cases c.suffixP <;> simp

@[simp] theorem Form.accepts_none (f : Form) : f.accepts Option.none = true ↔ f = .none := by simp [Form.accepts]

/-- A form without an operand has no value below its bound. -/
@[simp] theorem Form.accepts_some (f : Form) (o : Operand) :
    f.accepts (some o) = true ↔ o.readable f = true ∧ o.value < f.bound := by
  have hne : o.value < f.bound → (f != .none) = true := by cases f <;> simp [Form.bound]
  simp only [Form.accepts, Bool.and_eq_true, decide_eq_true_eq]
  exact ⟨fun ⟨⟨_, hr⟩, hb⟩ => ⟨hr, hb⟩, fun ⟨hr, hb⟩ => ⟨⟨hne hb, hr⟩, hb⟩⟩

theorem AsmCommand.value_lt {c : AsmCommand} (h : c.mnemonic.form.accepts c.operand = true) :
    c.value < 2 ^ c.mnemonic.form.width := by
  obtain ⟨m, p, o⟩ := c
  cases o with
  | none => exact Nat.two_pow_pos _
  | some o => exact ((Form.accepts_some _ o).mp h).2.trans_le (Form.bound_le_two_pow _)

end Sys2Proof

namespace Sys2Proof.Machine

/-! ### Illegal words at the step (R56, R57, R87) -/

/-- A write of a word that does not decode raises `IllegalCommand` (R56, R87). -/
theorem step_illegalWrite {s : State} {w : Word} {rest : List HostEvent} (hp : s.pending = .write 0 4 w :: rest)
    {why : IllegalWord} (hd : decode w = .error why) : step s = rejectIllegal (s.advance rest) := by
  rw [step_cmdWrite hp, execWord, hd]

/-- Settles O7: such a word breaks a field rule, so no row matches it. -/
theorem reservedEncodingsAreIllegalNotRefused : Obligations.ReservedEncodingsAreIllegalNotRefused := by
  intro w hw
  have hillegal : ∃ why, decode w = .error why := by
    refine decode_error_iff.mpr fun h => ?_
    have hr := decodes_iff_fieldRules.mp h
    rcases hw with hop | hrsv
    · have hle := hr.opcode
      simp only [List.mem_cons, List.not_mem_nil, or_false] at hop
      omega
    · exact hrsv hr.rsv
  refine ⟨hillegal, fun s rest hp => ?_⟩
  obtain ⟨why, hd⟩ := hillegal
  exact ⟨_, step_illegalWrite hp hd, by simp [State.onEngine]⟩

theorem commandError_ne_illegalCommand (i : Instr) (e : Engine) : commandError i e ≠ some .illegalCommand := by
  unfold commandError
  split
  · simp
  · split <;> simp

theorem nextError_eq_illegalCommand_iff {s : State} : s.nextError = some .illegalCommand ↔ s.NextIllegal := by
  refine ⟨fun h => ?_, nextError_of_illegal⟩
  cases hi : s.nextInstr with
  | some i => exact absurd ((nextError_of_instr hi).symm.trans h) (commandError_ne_illegalCommand i _)
  | none =>
    by_contra hl
    simp [nextError_of_none hi hl] at h

theorem not_startsAfresh_of_nextIllegal {s : State} (h : s.NextIllegal) : ¬s.NextStartsAfresh := by
  obtain ⟨w, rest, why, hp, -⟩ := nextIllegal_iff.mp h
  simp [State.NextStartsAfresh, State.nextReset, hp, h.2]

/-- A step sets `ERR_ILL` exactly when it serves an illegal word. -/
theorem step_errIll {s t : State} (h : step s = .next t) (h0 : s.engine.errIll = false) :
    t.engine.errIll = true ↔ s.NextIllegal := by
  by_cases hf : s.NextStartsAfresh
  · obtain ⟨v, e⟩ := step_startsAfresh h hf
    have hn : ¬s.NextIllegal := fun hl => not_startsAfresh_of_nextIllegal hl hf
    simp only [e, Engine.reset, hn, Bool.false_eq_true]
  · rw [(step_sameErrors h hf).errIll, ← nextError_eq_illegalCommand_iff]
    simp [h0]

/-- Settles O47: the next event is illegal exactly when it writes a word that no row matches. -/
theorem illegalCommandOnlyByIllegalWords : Obligations.IllegalCommandOnlyByIllegalWords := by
  intro s t h h0
  rw [step_errIll h h0, nextIllegal_iff]
  have hw (w : Word) : (∃ why, decode w = .error why) ↔ ∀ r ∈ opcodeTable, w &&& r.mask ≠ r.pattern := by
    rw [decode_error_iff, decodes_iff_matches]
    simp
  simp only [← hw, exists_and_left]

/-! ### The assembler (R62, R63) -/

/-- The command the assembler builds is the one its row reads from the word. -/
theorem buildInstr_eq_instrOfRow {m : Mnemonic} {v : Nat} (p : Bool) (hv : v < 2 ^ m.form.width) :
    buildInstr m p v = instrOfRow m (commandWord m.opcode p (BitVec.ofNat 8 v)) := by
  have hgroup : BitVec.ofNat 5 v = (BitVec.ofNat 8 v).extractLsb' 0 5 := by
    apply BitVec.eq_of_toNat_eq
    simp
  have hvariant : ∀ v < 2, variantOfBit ((BitVec.ofNat 8 v).getLsbD 0) = if v = 0 then .bech32 else .bech32m := by decide
  cases m with
  | INIT => simp only [buildInstr, instrOfRow, dField_commandWord, hvariant v hv]
  | POLY | DEC5 => simp [buildInstr, instrOfRow, hgroup]
  | NOP | HRPH | HRPL | ENC8 | ENCFLUSH | DECEND | FIN | VERIFY => simp [buildInstr, instrOfRow]

/-- A well-formed line assembles to a command whose word is the line's (R62). -/
theorem assembleCommand_of_wellFormed {c : AsmCommand} (h : c.wellFormed = true) :
    ∃ i, assembleCommand c = some i ∧ encode i = c.word := by
  obtain ⟨hp, ha⟩ := c.wellFormed_iff.mp h
  have hv := c.value_lt ha
  have hv8 : c.value < 2 ^ 8 := hv.trans_le (Form.two_pow_width_le _)
  refine ⟨_, if_pos h, ?_⟩
  change encode (buildInstr c.mnemonic c.suffixP c.value) = c.word
  have hd : (BitVec.ofNat 8 c.value).toNat = c.value := Nat.mod_eq_of_lt hv8
  have hw : (BitVec.ofNat 8 c.value).setWidth 32 = BitVec.ofNat 32 c.value :=
    BitVec.setWidth_ofNat_of_le_of_lt (by decide) hv8
  rw [buildInstr_eq_instrOfRow _ hv, encode_instrOfRow (by simpa using hp) (by simpa [hd] using hv), pField_commandWord,
    dField_commandWord, commandWord_eq_or, ← Mnemonic.pattern_eq, hw, AsmCommand.word]

theorem assembles_iff {c : AsmCommand} {w : Word} :
    (∃ i, assembleCommand c = some i ∧ encode i = w) ↔ c.wellFormed = true ∧ w = c.word := by
  refine ⟨fun ⟨i, hi, hw⟩ => ?_, fun ⟨h, hw⟩ => hw ▸ assembleCommand_of_wellFormed h⟩
  have h : c.wellFormed = true := by
    by_contra hn
    simp [assembleCommand, hn] at hi
  obtain ⟨j, hj, hjw⟩ := assembleCommand_of_wellFormed h
  obtain rfl : i = j := Option.some.inj (hi.symm.trans hj)
  exact ⟨h, hw.symm.trans hjw⟩

theorem mem_feedback_iff (m : Mnemonic) : m ∈ [Mnemonic.ENC8, .ENCFLUSH, .DEC5] ↔ m.takesFeedback = true := by
  cases m <;> decide

theorem mem_noOperand_iff (m : Mnemonic) :
    m ∈ [Mnemonic.NOP, .ENCFLUSH, .DECEND, .FIN, .VERIFY] ↔ m.form = .none := by cases m <;> decide

theorem form_eq_variant_iff (m : Mnemonic) : m.form = .variant ↔ m = .INIT := by cases m <;> decide

/-- The operands that stand for a number, by mnemonic (R62). -/
theorem readable_value_iff (m : Mnemonic) (o : Operand) (n : Nat) :
    (o.readable m.form = true ∧ o.value = n) ↔
      some o = some (.num n) ∨ (∃ ch : Char, some o = some (.chr ch) ∧ ch.toNat < 128 ∧ n = ch.toNat) ∨
        (m = .INIT ∧ some o = some (.variantName .bech32) ∧ n = 0) ∨
        (m = .INIT ∧ some o = some (.variantName .bech32m) ∧ n = 1) := by
  cases o with
  | num k => simp [Operand.readable, Operand.value]
  | chr c => simp [Operand.readable, Operand.value, @eq_comm _ n]
  | variantName v => cases v <;> simp [Operand.readable, Operand.value, form_eq_variant_iff, @eq_comm _ n]

/-- The legal values of an operand, by mnemonic (R52). -/
theorem lt_bound_iff (m : Mnemonic) (n : Nat) :
    n < m.form.bound ↔ (m = .INIT ∧ n < 2) ∨ (m ∈ [Mnemonic.POLY, .DEC5] ∧ n < 32) ∨
      (m ∈ [Mnemonic.HRPH, .HRPL, .ENC8] ∧ n < 256) := by
  cases m <;> simp [Mnemonic.form, Form.bound]

/-- Settles O8: a line emits a word exactly when it is well formed, which is said here operand by operand. -/
theorem assemblerEmitsTheTablesWord : Obligations.AssemblerEmitsTheTablesWord := by
  refine ⟨fun ⟨m, p, o⟩ w => ?_, fun c i _ => decodeOfEncodeIsTheInstruction i⟩
  rw [assembles_iff, AsmCommand.wellFormed_iff, and_assoc, mem_feedback_iff, mem_noOperand_iff]
  refine and_congr_right fun _ => ?_
  cases o with
  | none => simp [AsmCommand.word, AsmCommand.value]
  | some o =>
    simp only [Form.accepts_some, reduceCtorEq, false_and, and_false, false_or, ← readable_value_iff, ← lt_bound_iff]
    constructor
    · rintro ⟨⟨hr, hb⟩, hw⟩
      exact ⟨o.value, ⟨hr, rfl⟩, hb, hw⟩
    · rintro ⟨n, ⟨hr, rfl⟩, hb, hw⟩
      exact ⟨⟨hr, hb⟩, hw⟩

/-- The accesses a list of command lines stands for (R12). -/
def emitted (cs : List AsmCommand) : Option (List HostEvent) :=
  (cs.mapM assembleCommand).map (List.map fun i => cmdWrite (encode i))

/-- Every line but a raw word and a register read stands for its expansion (R63). -/
theorem assembleLine_eq_emitted {l : AsmLine} (hword : ∀ x, l ≠ .word x) (hrd : ∀ r, l ≠ .rd r) :
    assembleLine l = emitted l.expansion := by
  cases l with
  | word x => exact absurd rfl (hword x)
  | rd r => exact absurd rfl (hrd r)
  | command | hrpsep | seed | polys | encdata | decdata => rfl

theorem emitted_singleton {c : AsmCommand} (h : c.wellFormed = true) : emitted [c] = some [cmdWrite c.word] := by
  obtain ⟨i, hi, hw⟩ := assembleCommand_of_wellFormed h
  simp [emitted, hi, hw]

theorem emitted_append {cs ds : List AsmCommand} {es fs : List HostEvent} (hc : emitted cs = some es)
    (hd : emitted ds = some fs) : emitted (cs ++ ds) = some (es ++ fs) := by
  obtain ⟨is, his, rfl⟩ := Option.map_eq_some_iff.mp hc
  obtain ⟨js, hjs, rfl⟩ := Option.map_eq_some_iff.mp hd
  simp [emitted, his, hjs]

/-- One line for each value of an operand list: the writes of the mnemonic's pattern `x`, suffix included, with each value. -/
theorem emitted_nums {m : Mnemonic} {p : Bool} {x : Word} {k : Nat} (vs : List (BitVec k))
    (hx : (m.row.pattern ||| if p then 0x100#32 else 0#32) = x) (hp : p = true → m.takesFeedback = true)
    (hk : 2 ^ k ≤ m.form.bound) :
    emitted ((vs.map fun v => Operand.num v.toNat).map fun o => ⟨m, p, some o⟩) =
      some (vs.map fun v => .write 0 4 (x ||| v.setWidth 32)) := by
  induction vs with
  | nil => rfl
  | cons v vs ih =>
    have hwf : (AsmCommand.mk m p (some (.num v.toNat))).wellFormed = true :=
      (AsmCommand.wellFormed_iff _).mpr ⟨hp, (Form.accepts_some _ _).mpr ⟨rfl, v.isLt.trans_le hk⟩⟩
    have hw : (AsmCommand.mk m p (some (.num v.toNat))).word = x ||| v.setWidth 32 := by
      simp [AsmCommand.word, AsmCommand.value, Operand.value, hx]
    have hv := emitted_singleton hwf
    rw [hw] at hv
    exact emitted_append hv ih

/-- Settles O9: an expansion is a list of lines for each operand list, and single lines. -/
theorem pseudoInstructionsExpandInOrder : Obligations.PseudoInstructionsExpandInOrder := by
  have hsep : emitted [⟨.POLY, false, some (.num 0)⟩] = some [.write 0 4 0x20000000] := by decide
  have hflush (p : Bool) :
      emitted [⟨.ENCFLUSH, p, none⟩] = some [.write 0 4 (if p then 0x60000100 else 0x60000000)] := by cases p <;> decide
  have hend : emitted [⟨.DECEND, false, none⟩] = some [.write 0 4 0x80000000] := by decide
  refine ⟨hsep, fun cs => ?seed, fun gs => ?polys, fun p bs => ?encdata, fun p gs => ?decdata⟩ <;>
    refine (assembleLine_eq_emitted (by simp) (by simp)).trans ?_
  case seed =>
    exact emitted_append (emitted_append (emitted_nums cs rfl (by decide) (by decide)) hsep)
      (emitted_nums cs rfl (by decide) (by decide))
  case polys => exact emitted_nums gs rfl (by decide) (by decide)
  case encdata => exact emitted_append (emitted_nums bs (by cases p <;> rfl) (fun _ => rfl) (by decide)) (hflush p)
  case decdata => exact emitted_append (emitted_nums gs (by cases p <;> rfl) (fun _ => rfl) (by decide)) hend

end Sys2Proof.Machine

namespace Sys2Proof.Machine

/-! ### Control commands (R65) -/

/-- Settles O25: the rule of `NOP` is the identity, so all it does is Exec's own `OUT <- 0` (R60, R65). -/
theorem nopOnlyClearsOut : Obligations.NopOnlyClearsOut := fun s =>
  calc exec .nop s
    _ = command (fun e => e) s := rfl
    _ = .next { s with engine := s.engine.clearOut } := command_eq _ _

end Sys2Proof.Machine

/-! Proofs about polymod feed and prefix seeding (41_polymod.md). The polymod step is a shift and five conditional XORs
(`polyStep_eq_xor`), a sequence of commands is a fold of `execEngine` (`runAll_eq`), and commands that feed groups run as
`polyFeed` (`runEngine_feeds`). -/

namespace Sys2Proof.Machine

/-! ### The polymod step (R67) -/

/-- `c[24:0] ++ v`, the accumulator with a group shifted in (R67). -/
def shiftIn (c : Chk) (v : Group) : Chk := c.extractLsb' 0 25 ++ v

/-- What bit `i` of `c[29:25]` adds to the step: `GEN[i]` where it is set (R67). -/
def genTerm (c : Chk) (i : Fin 5) : Chk := if c.getLsbD (25 + i.val) then gen i else 0#30

theorem xor_genTerm (t c : Chk) (i : Fin 5) :
    t ^^^ genTerm c i = if c.getLsbD (25 + i.val) then t ^^^ gen i else t := by
  unfold genTerm
  split
  · rfl
  · exact BitVec.xor_zero

theorem polyStep_eq_xor (c : Chk) (v : Group) :
    polyStep c v =
      shiftIn c v ^^^ genTerm c 0 ^^^ genTerm c 1 ^^^ genTerm c 2 ^^^ genTerm c 3 ^^^ genTerm c 4 := by
  simp only [xor_genTerm]
  exact polyStep_unrolled c v

theorem shiftIn_xor (c₁ c₂ : Chk) (v₁ v₂ : Group) :
    shiftIn (c₁ ^^^ c₂) (v₁ ^^^ v₂) = shiftIn c₁ v₁ ^^^ shiftIn c₂ v₂ := by
  simp only [shiftIn, BitVec.extractLsb'_xor]
  exact BitVec.xor_append.symm

theorem genTerm_xor (c₁ c₂ : Chk) (i : Fin 5) : genTerm (c₁ ^^^ c₂) i = genTerm c₁ i ^^^ genTerm c₂ i := by
  simp only [genTerm, BitVec.getLsbD_xor]
  cases c₁.getLsbD (25 + i.val) <;> cases c₂.getLsbD (25 + i.val) <;> simp

/-- Settles O27: the shift and each conditional XOR are linear. -/
theorem polyStepIsLinear : Obligations.PolyStepIsLinear := by
  intro c₁ c₂ v₁ v₂
  simp only [polyStep_eq_xor, shiftIn_xor, genTerm_xor]
  ac_rfl

theorem shiftIn_toNat (c : Chk) (v : Group) : (shiftIn c v).toNat = c.toNat % 2 ^ 25 * 32 + v.toNat := by
  rw [shiftIn, BitVec.toNat_append, ← Nat.shiftLeft_add_eq_or_of_lt v.isLt, Nat.shiftLeft_eq]
  simp

/-- The concatenation is the source's masked shift, XORed with the group. -/
theorem shiftIn_eq_source (c : Chk) (v : Group) : shiftIn c v = ((c &&& 0x1FFFFFF) <<< 5) ^^^ v.setWidth 30 := by
  have hshift : (c &&& 0x1FFFFFF) <<< 5 = shiftIn c 0#5 := by
    apply BitVec.eq_of_toNat_eq
    have hmask : (c &&& 0x1FFFFFF).toNat = c.toNat % 2 ^ 25 := Nat.and_two_pow_sub_one_eq_mod _ 25
    rw [shiftIn_toNat, BitVec.toNat_shiftLeft, hmask, Nat.shiftLeft_eq, BitVec.toNat_zero]
    omega
  have hgroup : v.setWidth 30 = shiftIn 0#30 v := by
    apply BitVec.eq_of_toNat_eq
    rw [shiftIn_toNat, BitVec.toNat_setWidth_of_le (by decide), BitVec.toNat_zero]
    omega
  rw [hshift, hgroup, ← shiftIn_xor, BitVec.xor_zero, BitVec.zero_xor]

theorem genTerm_eq_source (c : Chk) (i : Fin 5) : genTerm c i = if (c >>> 25).getLsbD i.val then gen i else 0#30 := by
  rw [genTerm, BitVec.getLsbD_ushiftRight]

/-- With `c[29:25] = 0` no `GEN` is applied. -/
theorem genTerm_of_lt {c : Chk} (h : c.toNat < 2 ^ 25) (i : Fin 5) : genTerm c i = 0#30 := by
  have hbit : c.getLsbD (25 + i.val) = false :=
    Nat.testBit_lt_two_pow (h.trans_le (Nat.pow_le_pow_right (by decide) (Nat.le_add_right _ _)))
  simp [genTerm, hbit]

theorem polyStep_toNat_of_lt {c : Chk} (h : c.toNat < 2 ^ 25) (v : Group) :
    (polyStep c v).toNat = c.toNat * 32 + v.toNat := by
  simp only [polyStep_eq_xor, genTerm_of_lt h, BitVec.xor_zero, shiftIn_toNat, Nat.mod_eq_of_lt h]

/-- Settles O26: each part of the step in the source's own words, its corner cases, and the example by evaluation. -/
theorem polyStepIsTheSourcesIteration : Obligations.PolyStepIsTheSourcesIteration := by
  refine ⟨fun c v => ?_, fun c v h => polyStep_toNat_of_lt h v, by decide, by decide⟩
  rw [polyStep_eq_xor, shiftIn_eq_source]
  simp only [genTerm_eq_source]
  rfl

/-! ### The feed commands (R68 to R71) -/

/-- Feed one group: what `POLY`, `HRPH` and `HRPL` do to the engine. -/
def Engine.feed (g : Group) (e : Engine) : Engine := { e with chk := polyStep e.chk g, out := ⟨0, 0, 0⟩ }

/-- A command whose whole effect is to feed this group. -/
def Feeds (i : Instr) (g : Group) : Prop := ∀ e, execEngine i e = e.feed g

theorem poly_feeds (g : Group) : Feeds (.poly g) g := fun _ => rfl
theorem hrph_feeds (c : Byte) : Feeds (.hrph c) (highPart c) := fun _ => rfl
theorem hrpl_feeds (c : Byte) : Feeds (.hrpl c) (lowPart c) := fun _ => rfl

theorem Feeds.exec_eq {i : Instr} {g : Group} (h : Feeds i g) (s : State) :
    exec i s = .next { s with engine := s.engine.feed g } := by
  rw [Machine.exec_eq, h]

theorem highPart_toNat (c : Byte) : (highPart c).toNat = c.toNat / 32 := by
  have hc := c.isLt
  rw [highPart, BitVec.toNat_setWidth, BitVec.extractLsb'_toNat, Nat.shiftRight_eq_div_pow]
  omega

theorem lowPart_toNat (c : Byte) : (lowPart c).toNat = c.toNat % 32 := by
  simp [lowPart]

theorem highPart_eq_ofNat (c : Byte) : highPart c = BitVec.ofNat 5 (c.toNat / 32) := by
  rw [← highPart_toNat, BitVec.ofNat_toNat, BitVec.setWidth_eq]

theorem lowPart_eq_ofNat (c : Byte) : lowPart c = BitVec.ofNat 5 (c.toNat % 32) := by
  rw [← lowPart_toNat, BitVec.ofNat_toNat, BitVec.setWidth_eq]

/-- Settles O29: the three commands feed, and the parts of a character are its quotient and remainder by 32. -/
theorem feedCommandsStepTheAccumulatorOnly : Obligations.FeedCommandsStepTheAccumulatorOnly := by
  refine fun s => ⟨fun g => (poly_feeds g).exec_eq s, fun c => ?_, fun c => ?_⟩
  · rw [← highPart_eq_ofNat]
    exact (hrph_feeds c).exec_eq s
  · rw [← lowPart_eq_ofNat]
    exact (hrpl_feeds c).exec_eq s

/-! ### Command sequences -/

/-- The engine after commands in order. -/
def runEngine (is : List Instr) (e : Engine) : Engine := is.foldl (fun e i => execEngine i e) e

@[simp] theorem runEngine_nil (e : Engine) : runEngine [] e = e := rfl

@[simp] theorem runEngine_cons (i : Instr) (is : List Instr) (e : Engine) :
    runEngine (i :: is) e = runEngine is (execEngine i e) := rfl

/-- What a sequence gives out besides does not matter to the state it reaches, and every command answers a next state. -/
theorem runCollect_fst {α : Type} (given : Out → List α) (is : List Instr) (s : State) :
    (runCollect given is s).map Prod.fst = some { s with engine := runEngine is s.engine } := by
  induction is generalizing s with
  | nil => rfl
  | cons i is ih =>
    simp only [runCollect, exec_eq, Option.map_map]
    exact ih _

theorem runAll_eq (is : List Instr) (s : State) : runAll is s = some { s with engine := runEngine is s.engine } :=
  runCollect_fst outGroups is s

/-- Commands that feed these groups, run from a cleared `OUT`, feed them in order and change nothing else. -/
theorem runEngine_feeds {is : List Instr} {gs : List Group} (h : List.Forall₂ Feeds is gs) {e : Engine}
    (ho : e.out = ⟨0, 0, 0⟩) : runEngine is e = { e with chk := polyFeed e.chk gs } := by
  induction h generalizing e with
  | nil => rfl
  | cons hi _ ih =>
    rw [runEngine_cons, hi, ih rfl]
    simp [Engine.feed, ho]

/-! ### Prefix seeding (R63, R72) -/

theorem highPart_eq_shift (c : Byte) : highPart c = (c >>> 5).setWidth 5 := by
  rw [highPart_eq_ofNat]
  apply BitVec.eq_of_toNat_eq
  simp [Nat.shiftRight_eq_div_pow]

theorem lowPart_eq_and (c : Byte) : lowPart c = (c &&& 0x1F).setWidth 5 := by
  have hmask : c.toNat &&& 0x1F = c.toNat % 2 ^ 5 := Nat.and_two_pow_sub_one_eq_mod _ 5
  rw [lowPart_eq_ofNat, ← BitVec.ofNat_toNat]
  exact congrArg (BitVec.ofNat 5) hmask.symm

theorem forall₂_feeds_map {f : Byte → Instr} {g : Byte → Group} (h : ∀ c, Feeds (f c) (g c)) (p : List Byte) :
    List.Forall₂ Feeds (p.map f) (p.map g) := by
  simpa only [List.forall₂_map_left_iff, List.forall₂_map_right_iff, List.forall₂_same] using fun c _ => h c

/-- The commands of `SEED` feed the prefix expansion, group for group. -/
theorem seedCommands_feed (p : List Byte) : List.Forall₂ Feeds (seedCommands p) (expandPrefix p) := by
  simp only [seedCommands, expandPrefix, ← highPart_eq_shift, ← lowPart_eq_and]
  exact List.rel_append (List.rel_append (forall₂_feeds_map hrph_feeds p) (.cons (poly_feeds 0) .nil))
    (forall₂_feeds_map hrpl_feeds p)

/-- Settles O54: `INIT` leaves the reset values with `CHK = 1`, and the commands of `SEED` feed the expansion into it. -/
theorem seedingComputesTheExpandedPrefix : Obligations.SeedingComputesTheExpandedPrefix := by
  intro v p s
  have hinit : execEngine (.init v) s.engine = { Engine.reset with variant := v } := rfl
  rw [runAll_eq, runEngine_cons, hinit, runEngine_feeds (seedCommands_feed p) rfl]
  rfl

end Sys2Proof.Machine

/-! Proofs about checksum creation and verification (42_checksum.md). Six groups fed into 0 are their concatenation, and by
linearity six groups fed into any accumulator add it to what six zeros give (`polyFeed_xor`). -/

namespace Sys2Proof.Machine

/-! ### Feeding six groups (R67, R77) -/

/-- While `CHK[29:25] = 0`, feeding a group appends it. -/
theorem polyStep_setWidth {w : Nat} (hw : w ≤ 25) (x : BitVec w) (g : Group) :
    polyStep (x.setWidth 30) g = (x ++ g).setWidth 30 := by
  have hset : (x.setWidth 30).toNat = x.toNat := BitVec.toNat_setWidth_of_le (by omega)
  have hx : (x.setWidth 30).toNat < 2 ^ 25 :=
    hset.trans_lt (x.isLt.trans_le (Nat.pow_le_pow_right (by decide) hw))
  have happ : (x ++ g).toNat = x.toNat * 32 + g.toNat := by
    rw [BitVec.toNat_append, ← Nat.shiftLeft_add_eq_or_of_lt g.isLt, Nat.shiftLeft_eq]
  apply BitVec.eq_of_toNat_eq
  rw [polyStep_toNat_of_lt hx, hset, BitVec.toNat_setWidth_of_le (by omega), happ]

/-- Settles O28: each of the six steps appends its group, the first to the empty word. -/
theorem sixGroupsIntoZeroConcatenate : Obligations.SixGroupsIntoZeroConcatenate := by
  intro g₀ g₁ g₂ g₃ g₄ g₅
  have hfirst : polyStep 0 g₀ = g₀.setWidth 30 := by
    have happ := polyStep_setWidth (by decide) 0#0 g₀
    rwa [BitVec.setWidth_zero, BitVec.zero_width_append] at happ
  simp only [polyFeed_cons, polyFeed_nil, hfirst, polyStep_setWidth, Nat.reduceAdd, Nat.reduceLeDiff, BitVec.setWidth_eq]

/-- Linearity (R67) over a whole sequence: what stood in the accumulator adds to what is fed. -/
theorem polyFeed_xor (c d : Chk) (gs : List Group) :
    polyFeed (c ^^^ d) gs = polyFeed c (List.replicate gs.length 0) ^^^ polyFeed d gs := by
  induction gs generalizing c d with
  | nil => rfl
  | cons g gs ih =>
    have hstep : polyStep (c ^^^ d) g = polyStep c 0#5 ^^^ polyStep d g := by
      rw [← polyStepIsLinear, BitVec.zero_xor]
    rw [polyFeed_cons, hstep, ih]
    rfl

/-! ### The checksum's groups (R74) -/

/-- The groups are adjacent slices, from bit 29 down to bit 0. -/
theorem checksumGroup_concat (sum : Chk) :
    (checksumGroup sum 0 ++ checksumGroup sum 1 ++ checksumGroup sum 2 ++ checksumGroup sum 3 ++ checksumGroup sum 4 ++
      checksumGroup sum 5 : BitVec (5 + 5 + 5 + 5 + 5 + 5)) = sum := by
  simp only [checksumGroup]
  iterate 5 rw [BitVec.extractLsb'_append_extractLsb'_eq_extractLsb' (by decide)]
  exact BitVec.extractLsb'_eq_self

theorem checksumGroup_eq_of_shift (sum : Chk) (j : Fin 6) :
    ((sum.setWidth 32 : BitVec 32) <<< 2).extractLsb' (27 - 5 * j.val) 5 = checksumGroup sum j := by
  apply BitVec.eq_of_getLsbD_eq
  intro i hi
  have hlt : 27 - 5 * j.val + i < 32 := by omega
  have hge : ¬27 - 5 * j.val + i < 2 := by omega
  have hsub : 27 - 5 * j.val + i - 2 = 25 - 5 * j.val + i := by omega
  simp [checksumGroup, hi, hlt, hge, hsub]

/-- Settles O31: the six slices put together, and each of them in the shifted word. -/
theorem checksumGroupsAreSumMsbFirst : Obligations.ChecksumGroupsAreSumMsbFirst := by
  refine fun sum => ⟨checksumGroup_concat sum, rfl, fun j => ?_⟩
  rw [checksumGroup_eq_of_shift]
  simp [checksumGroups]

/-- R77: the six groups of a checksum add it to what six zero groups give. -/
theorem polyFeed_checksumGroups (c sum : Chk) :
    polyFeed c (checksumGroups sum) = polyFeed c (List.replicate 6 0) ^^^ sum := by
  have hzero : polyFeed 0#30 (checksumGroups sum) = sum :=
    (sixGroupsIntoZeroConcatenate _ _ _ _ _ _).trans (checksumGroup_concat sum)
  have hadd := polyFeed_xor c 0#30 (checksumGroups sum)
  rw [BitVec.xor_zero, hzero] at hadd
  exact hadd

/-- R77: a checksum created by R76 verifies, for what it adds to the six zeros leaves the variant's constant. -/
theorem verifyChecksum_createChecksum (v : Variant) (p payload : List Byte) :
    verifyChecksum v p (encodeBytes payload ++ checksumGroups (createChecksum v p payload)) = true := by
  rw [verifyChecksum, beq_iff_eq, createChecksum, ← List.append_assoc]
  simp only [polymod, polyFeed_append, polyFeed_checksumGroups]
  rw [← BitVec.xor_assoc, BitVec.xor_self, BitVec.zero_xor]

/-! ### `FIN` and `VERIFY` (R73, R75) -/

/-- Settles O30: an accepted `FIN` feeds six zero groups and adds the variant's constant. -/
theorem finCreatesTheChecksum : Obligations.FinCreatesTheChecksum := by
  intro s ha
  have hr : sequenceRejects .fin s.engine = false := by simpa [sequenceRejects] using ha
  refine ⟨_, rfl, ?_⟩
  rw [exec_eq, execEngine_accepted hr, accepted]
  cases s.engine.variant <;> rfl

/-- Settles O32: `VERIFY` is never rejected, and the comparison is with the variant's constant. -/
theorem verifyWritesVokOnly : Obligations.VerifyWritesVokOnly := by
  intro s
  have hv : execEngine .verify s.engine =
      { s.engine.clearOut with vok := decide (s.engine.chk = variantConst s.engine.variant) } := by
    rw [← checksumOk_eq_decide]; rfl
  rw [exec_eq, hv]
  cases s.engine.variant <;> rfl

end Sys2Proof.Machine

/-! Bit lists (20_memory.md R41) against the repacker's slices: the loop of R79 and the padding of R80 give the groups that the
source's `groupsOfBits` (R84) cuts from the same bits. -/

namespace Sys2Proof.Machine

/-! ### Bits held and given out, most significant first (R79, R80, R84) -/

/-- The low `n` bits of a word, the most significant first. -/
def msbFirst {w : Nat} (x : BitVec w) (n : Nat) : List Bool := (List.range n).map fun i => x.getLsbD (n - 1 - i)

@[simp] theorem msbFirst_length {w : Nat} (x : BitVec w) (n : Nat) : (msbFirst x n).length = n := by simp [msbFirst]

@[simp] theorem streamBits_nil {w : Nat} : streamBits ([] : List (BitVec w)) = [] := rfl

@[simp] theorem streamBits_cons {w : Nat} (x : BitVec w) (xs : List (BitVec w)) :
    streamBits (x :: xs) = msbFirst x w ++ streamBits xs := rfl

theorem msbFirst_congr {w w' : Nat} {x : BitVec w} {y : BitVec w'} {n : Nat}
    (h : ∀ i < n, x.getLsbD i = y.getLsbD i) : msbFirst x n = msbFirst y n :=
  List.map_congr_left fun i hi => h _ (by have := List.mem_range.mp hi; omega)

theorem msbFirst_eq_replicate {w : Nat} {x : BitVec w} {n : Nat} (h : ∀ i < n, x.getLsbD i = false) :
    msbFirst x n = List.replicate n false := by
  refine List.eq_replicate_iff.mpr ⟨msbFirst_length x n, fun b hb => ?_⟩
  obtain ⟨i, hi, rfl⟩ := List.mem_map.mp hb
  exact h _ (by have := List.mem_range.mp hi; omega)

/-- The bits from `n` up come first. -/
theorem msbFirst_add {w : Nat} (x : BitVec w) (n m : Nat) :
    msbFirst x (n + m) = msbFirst (x.extractLsb' n m) m ++ msbFirst x n := by
  rw [msbFirst, Nat.add_comm, List.range_add, List.map_append, List.map_map]
  refine congrArg₂ _ (List.map_congr_left fun i hi => ?_) (List.map_congr_left fun i _ => ?_)
  · have hi' := List.mem_range.mp hi
    have hlt : m - 1 - i < m := by omega
    have hidx : m + n - 1 - i = n + (m - 1 - i) := by omega
    rw [BitVec.getLsbD_extractLsb', hidx, decide_eq_true hlt, Bool.true_and]
  · have hidx : m + n - 1 - (m + i) = n - 1 - i := by omega
    rw [Function.comp_apply, hidx]

/-! ### Packing a group (R84) -/

/-- Packing a word's own bits one by one reads it from the top. -/
theorem foldl_msbFirst {w : Nat} (x : BitVec w) {n : Nat} (h : n ≤ w) :
    (List.range n).foldl (fun k i => 2 * k + ((msbFirst x w).getD i false).toNat) 0 = x.toNat >>> (w - n) := by
  induction n with
  | zero => simp [Nat.shiftRight_eq_div_pow, Nat.div_eq_of_lt x.isLt]
  | succ n ih =>
    have hbit : (msbFirst x w).getD n false = x.toNat.testBit (w - (n + 1)) := by
      have hidx : w - 1 - n = w - (n + 1) := by omega
      simp [msbFirst, show n < w from h, hidx, BitVec.getLsbD]
    have hsucc : w - n = w - (n + 1) + 1 := by omega
    rw [List.range_succ, List.foldl_append, ih (Nat.le_of_succ_le h), List.foldl_cons, List.foldl_nil, hbit, hsucc,
      Nat.shiftRight_succ, Nat.toNat_testBit, Nat.shiftRight_eq_div_pow]
    omega

theorem packBits_msbFirst {w : Nat} (x : BitVec w) : packBits w (msbFirst x w) = x := by
  rw [packBits, foldl_msbFirst x le_rfl, Nat.sub_self, Nat.shiftRight_zero, BitVec.ofNat_toNat, BitVec.setWidth_eq]

/-- Missing bits count as 0. -/
theorem packBits_append_replicate (w : Nat) (bs : List Bool) (k : Nat) :
    packBits w (bs ++ List.replicate k false) = packBits w bs := by
  have hget (i : Nat) : (bs ++ List.replicate k false).getD i false = bs.getD i false := by
    rcases Nat.lt_or_ge i bs.length with hi | hi
    · exact List.getD_append _ _ _ _ hi
    · rw [List.getD_append_right _ _ _ _ hi, List.getD_eq_default _ _ hi, List.getD_eq_getElem?_getD,
        List.getElem?_getD_replicate_default_eq]
  simp only [packBits, hget]

/-- The final partial group is the held bits and zeros after them. -/
theorem msbFirst_padGroup (a : Acc) {n : Nat} (h : n ≤ 5) :
    msbFirst (padGroup a n) 5 = msbFirst a n ++ List.replicate (5 - n) false := by
  have hlow (i : Nat) (hi : i < 5 - n) : (padGroup a n).getLsbD i = false := by
    have h5 : i < 5 := by omega
    simp [padGroup, BitVec.getLsbD_append, hi, h5]
  have hhigh (i : Nat) (hi : i < n) : ((padGroup a n).extractLsb' (5 - n) n).getLsbD i = a.getLsbD i := by
    have h5 : 5 - n + i < 5 := by omega
    simp [padGroup, BitVec.getLsbD_append, hi, h5]
  calc msbFirst (padGroup a n) 5
    _ = msbFirst (padGroup a n) (5 - n + n) := by rw [Nat.sub_add_cancel h]
    _ = msbFirst a n ++ List.replicate (5 - n) false := by
      rw [msbFirst_add, msbFirst_congr hhigh, msbFirst_eq_replicate hlow]

theorem packBits_msbFirst_eq_padGroup (a : Acc) {n : Nat} (h : n ≤ 5) : packBits 5 (msbFirst a n) = padGroup a n := by
  rw [← packBits_append_replicate 5 _ (5 - n), ← msbFirst_padGroup a h, packBits_msbFirst]

/-! ### Cutting a bit list into groups (R79, R84) -/

theorem groupsOfBits_append_of_length_eq {bs : List Bool} (h : bs.length = 5) (rest : List Bool) :
    groupsOfBits (bs ++ rest) = packBits 5 bs :: groupsOfBits rest := by
  match bs, h with
  | [_, _, _, _, _], _ => rfl

theorem groupsOfBits_of_length_lt {bs : List Bool} (h0 : bs ≠ []) (h : bs.length < 5) :
    groupsOfBits bs = [packBits 5 bs] := by
  match bs, h0, h with
  | [_], _, _ | [_, _], _, _ | [_, _, _], _, _ | [_, _, _, _], _, _ => rfl

/-- The loop of R79 takes the groups that R84 cuts from the same bits. -/
theorem groupsOfBits_msbFirst_append (a : Acc) (n : Nat) (rest : List Bool) :
    groupsOfBits (msbFirst a n ++ rest) = takeGroups a n ++ groupsOfBits (msbFirst a (bitsLeft n) ++ rest) := by
  induction n using bitsLeft.induct with
  | case1 n ih =>
    change groupsOfBits (msbFirst a (n + 5) ++ rest) = _
    rw [msbFirst_add, List.append_assoc, groupsOfBits_append_of_length_eq (msbFirst_length _ _), packBits_msbFirst, ih]
    rfl
  | case2 n h => simp [takeGroups, bitsLeft]

end Sys2Proof.Machine

/-! Proofs about the checksum sequences (42_checksum.md R76, R77). A run of commands is followed by `Engine.Fed`, the groups it
feeds with the variant and the error record kept; for the encoder these are cut from the bits held (`groupsOfBits_enc8`). -/

namespace Sys2Proof.Machine

/-! ### What the repacker holds (R18, R79, R80) -/

/-- The valid bits of `ACC` (R18, R19), the most significant first. -/
def Engine.heldBits (e : Engine) : List Bool := msbFirst e.acc e.nbits.toNat

theorem heldBits_hold {n : Nat} (hn : n < 16) (m : Mode) (a : Acc) (e : Engine) : (e.hold m a n).heldBits = msbFirst a n := by
  have hn' : (BitVec.ofNat 4 n).toNat = n := Nat.mod_eq_of_lt hn
  rw [Engine.heldBits, Engine.hold_acc, Engine.hold_nbits, hn']
  refine msbFirst_congr fun i hi => ?_
  by_cases hw : i < 12
  · simp [lowBits, hi, hw]
  · simp [lowBits, hw, BitVec.getLsbD_of_ge a i (by omega)]

/-- `ENC8` shifts the byte in after the bits held. -/
theorem msbFirst_encAcc {e : Engine} (h : e.nbits.toNat ≤ 4) (b : Byte) :
    msbFirst (encAcc e b) (e.nbits.toNat + 8) = e.heldBits ++ msbFirst b 8 := by
  have hheld (i : Nat) (hi : i < e.nbits.toNat) :
      ((encAcc e b).extractLsb' 8 e.nbits.toNat).getLsbD i = e.acc.getLsbD i := by
    have hw : 8 + i < 12 := by omega
    simp [encAcc, hi, hw, BitVec.getLsbD_eq_getElem (show i < 12 by omega)]
  have hbyte (i : Nat) (hi : i < 8) : (encAcc e b).getLsbD i = b.getLsbD i := by
    have hw : i < 12 := by omega
    simp [encAcc, hi, hw]
  rw [Nat.add_comm, msbFirst_add, msbFirst_congr hheld, msbFirst_congr hbyte, Engine.heldBits]

/-- R79: an accepted `ENC8` gives out the first groups that R84 cuts from the bits held and the byte, and holds the rest. -/
theorem groupsOfBits_enc8 {e : Engine} (h : e.nbits.toNat ≤ 4) (p : Bool) (b : Byte) (rest : List Bool) :
    groupsOfBits (e.heldBits ++ (msbFirst b 8 ++ rest)) =
      enc8Groups e b ++ groupsOfBits ((accepted (.enc8 p b) e).heldBits ++ rest) := by
  have hleft : bitsLeft (e.nbits.toNat + 8) < 16 := by rw [bitsLeft_eq_mod]; omega
  rw [accepted, heldBits_hold hleft, ← List.append_assoc, ← msbFirst_encAcc h, groupsOfBits_msbFirst_append, enc8Groups]

/-- R80: an accepted `ENCFLUSH` gives out the groups that R84 cuts from the bits held. -/
theorem groupsOfBits_heldBits {e : Engine} (h : e.nbits.toNat ≤ 4) : groupsOfBits e.heldBits = flushGroups e := by
  rw [flushGroups]
  by_cases hn : e.nbits = 0
  · rw [if_pos hn, Engine.heldBits, hn]
    rfl
  · have hlen : e.heldBits.length = e.nbits.toNat := msbFirst_length _ _
    have hne : e.heldBits ≠ [] := fun h0 => hn (BitVec.eq_of_toNat_eq (by rw [← hlen, h0]; rfl))
    rw [if_neg hn, groupsOfBits_of_length_lt hne (by omega), Engine.heldBits, packBits_msbFirst_eq_padGroup _ (by omega)]

/-! ### What a run of commands feeds (R83) -/

/-- From `e` to `e'` these groups are fed in order; the variant and the error record are kept. -/
structure Engine.Fed (gs : List Group) (e e' : Engine) : Prop where
  chk : e'.chk = polyFeed e.chk gs
  variant : e'.variant = e.variant
  errors : e.SameErrors e'

theorem Engine.Fed.refl (e : Engine) : Engine.Fed [] e e := ⟨rfl, rfl, rfl, rfl, rfl, rfl⟩

theorem Engine.SameErrors.trans {e e' e'' : Engine} (h : e.SameErrors e') (h' : e'.SameErrors e'') : e.SameErrors e'' :=
  ⟨h'.errIll.trans h.errIll, h'.errSeq.trans h.errSeq, h'.errPad.trans h.errPad, h'.cause.trans h.cause⟩

theorem Engine.SameErrors.noError {e e' : Engine} (h : e.SameErrors e') (he : e.NoError) : e'.NoError := by
  simpa only [Engine.NoError, h.errIll, h.errSeq, h.errPad] using he

theorem Engine.Fed.trans {gs hs : List Group} {e e' e'' : Engine} (h : Engine.Fed gs e e') (h' : Engine.Fed hs e' e'') :
    Engine.Fed (gs ++ hs) e e'' :=
  ⟨by rw [h'.chk, h.chk, polyFeed_append], h'.variant.trans h.variant, h.errors.trans h'.errors⟩

/-- The groups an accepted command feeds (R83: those it gives out or takes in, with `P`). -/
def fedGroups (i : Instr) (e : Engine) : List Group :=
  match i with
  | .poly g => [g]
  | .hrph c => [highPart c]
  | .hrpl c => [lowPart c]
  | .enc8 p b => if p then enc8Groups e b else []
  | .encflush p => if p then flushGroups e else []
  | .dec5 p g => if p then [g] else []
  | .fin => List.replicate 6 0
  | .nop | .init _ | .decend | .verify => []

/-- A command other than `INIT` that raises no error feeds its groups. -/
theorem execEngine_fed {i : Instr} {e : Engine} (hr : sequenceRejects i e = false) (hi : ∀ v, i ≠ .init v)
    (hd : i = .decend → paddingBad e = false) : Engine.Fed (fedGroups i e) e (execEngine i e) := by
  refine ⟨?_, ?_, ?_⟩
  · rw [execEngine_accepted hr]
    cases i with
    | init v => exact absurd rfl (hi v)
    | enc8 p | encflush p | dec5 p => cases p <;> rfl
    | decend => exact Engine.record_chk _ _
    | nop | poly | hrph | hrpl | fin | verify => rfl
  · rw [execEngine_variant]
    cases i with
    | init v => exact absurd rfl (hi v)
    | nop | poly | hrph | hrpl | enc8 | encflush | dec5 | decend | fin | verify => rfl
  · have hk : commandError i e = none := by simpa [commandError, hr] using hd
    have herr := execEngine_sameErrors hi e
    rwa [hk] at herr

@[simp] theorem runEngine_append (is js : List Instr) (e : Engine) :
    runEngine (is ++ js) e = runEngine js (runEngine is e) := List.foldl_append

/-- `POLY` for each of these groups. -/
theorem runEngine_poly_fed (gs : List Group) (e : Engine) : Engine.Fed gs e (runEngine (gs.map .poly) e) := by
  induction gs generalizing e with
  | nil => exact .refl e
  | cons g gs ih => exact (execEngine_fed (i := .poly g) rfl nofun nofun).trans (ih _)

/-- `DEC5.P` for each of these groups, the repacker not encoding. -/
theorem runEngine_dec5_fed (gs : List Group) {e : Engine} (hm : e.mode ≠ .enc) :
    Engine.Fed gs e (runEngine (gs.map (.dec5 true)) e) := by
  induction gs generalizing e with
  | nil => exact .refl e
  | cons g gs ih =>
    have hr : sequenceRejects (.dec5 true g) e = false := by simpa [sequenceRejects] using hm
    have hmode : (execEngine (.dec5 true g) e).mode ≠ .enc := by
      rw [execEngine_accepted hr]
      exact nofun
    exact (execEngine_fed hr nofun nofun).trans (ih hmode)

/-- R84: `ENCDATA.P` feeds the groups cut from the bits held and the bytes, and leaves the repacker idle. -/
theorem runEngine_encdata_fed (bs : List Byte) {e : Engine} (he : e.RepackerOk) (hm : e.mode ≠ .dec) :
    Engine.Fed (groupsOfBits (e.heldBits ++ streamBits bs)) e (runEngine (encdataCommands true bs) e) ∧
      (runEngine (encdataCommands true bs) e).mode = .idle := by
  induction bs generalizing e with
  | nil =>
    have hr : sequenceRejects (.encflush true) e = false := by simpa [sequenceRejects] using hm
    have hfed := execEngine_fed hr nofun nofun
    rw [streamBits_nil, List.append_nil, groupsOfBits_heldBits (nbits_le_of_not_dec he hm)]
    refine ⟨hfed, ?_⟩
    change (execEngine (.encflush true) e).mode = .idle
    rw [execEngine_accepted hr]
    rfl
  | cons b bs ih =>
    have hr : sequenceRejects (.enc8 true b) e = false := by simpa [sequenceRejects] using hm
    have hfed := execEngine_fed hr nofun nofun
    have hmode : (execEngine (.enc8 true b) e).mode ≠ .dec := by
      rw [execEngine_accepted hr]
      exact nofun
    obtain ⟨hrest, hidle⟩ := ih (execEngine_repackerOk _ e he) hmode
    rw [streamBits_cons, groupsOfBits_enc8 (nbits_le_of_not_dec he hm) true, ← execEngine_accepted hr]
    exact ⟨hfed.trans hrest, hidle⟩

/-! ### The two whole sequences (R76, R77) -/

/-- The engine after `INIT v` and `SEED "p"` (R72). -/
def seeded (v : Variant) (p : List Byte) : Engine :=
  { State.reset.engine with variant := v, chk := polymod (expandPrefix p) }

theorem runAll_seeded (v : Variant) (p : List Byte) (is : List Instr) (s : State) :
    runAll (.init v :: seedCommands p ++ is) s = some { s with engine := runEngine is (seeded v p) } := by
  have hseed := seedingComputesTheExpandedPrefix v p s
  rw [runAll_eq] at hseed
  have hengine : runEngine (.init v :: seedCommands p) s.engine = seeded v p :=
    congrArg State.engine (Option.some.inj hseed)
  rw [runAll_eq, runEngine_append, hengine]

theorem seeded_noError (v : Variant) (p : List Byte) : (seeded v p).NoError := ⟨rfl, rfl, rfl⟩

theorem seeded_repackerOk (v : Variant) (p : List Byte) : (seeded v p).RepackerOk := emptyRepacker_repackerOk (seeded v p)

/-- What a sequence feeds after the seed is what `VERIFY` checks (R75, R77). -/
theorem Engine.Fed.checksumOk_eq {v : Variant} {p : List Byte} {gs : List Group} {e : Engine}
    (h : Engine.Fed gs (seeded v p) e) : checksumOk e = verifyChecksum v p gs := by
  rw [checksumOk, verifyChecksum, h.chk, h.variant, polymod, polyFeed_append]
  rfl

/-- Settles O57: `ENCDATA.P` feeds the payload's groups and leaves the repacker idle, so `FIN` is accepted. -/
theorem encodeSequenceCreatesTheChecksum : Obligations.EncodeSequenceCreatesTheChecksum := by
  intro v p payload s
  obtain ⟨hfed, hidle⟩ := runEngine_encdata_fed payload (seeded_repackerOk v p) nofun
  have hr : sequenceRejects .fin (runEngine (encdataCommands true payload) (seeded v p)) = false := by
    rw [sequenceRejects, hidle]
    rfl
  have hfin := hfed.trans (execEngine_fed hr nofun nofun)
  rw [List.append_assoc, runAll_seeded, runEngine_append]
  refine ⟨_, rfl, ?_, hfin.errors.noError (seeded_noError v p)⟩
  calc (execEngine .fin (runEngine (encdataCommands true payload) (seeded v p))).sum
    _ = polyFeed (polyFeed (seeded v p).chk (encodeBytes payload)) (List.replicate 6 0) ^^^ variantConst v := by
      rw [execEngine_sum, hr, hfed.chk, hfed.variant]
      rfl
    _ = createChecksum v p payload := by
      rw [createChecksum, polymod, polyFeed_append, polyFeed_append]
      rfl

/-- `DECEND`, accepted or not, feeds nothing, so `VERIFY` finds the same after it (R77). -/
theorem checksumOk_decend (e : Engine) : checksumOk (execEngine .decend e) = checksumOk e := by
  have hchk : (execEngine .decend e).chk = e.chk := by
    rcases hr : sequenceRejects .decend e with _ | _
    · rw [execEngine_accepted hr]
      exact Engine.record_chk _ _
    · rw [execEngine_rejected hr]
      rfl
  rw [checksumOk, hchk, execEngine_variant, checksumOk]

/-- R77: `DEC5.P` for the data groups and `POLY` for the checksum's, after the seed. -/
theorem runEngine_decode_fed (v : Variant) (p : List Byte) (data chks : List Group) :
    Engine.Fed (data ++ chks) (seeded v p) (runEngine (data.map (.dec5 true) ++ chks.map .poly) (seeded v p)) := by
  rw [runEngine_append]
  exact (runEngine_dec5_fed data (e := seeded v p) nofun).trans (runEngine_poly_fed chks _)

/-- Settles O58: the sequence feeds the full data groups, which `VERIFY` then checks, and `DECEND` writes neither `CHK` nor
`VOK`. -/
theorem decodeSequenceVerifiesTheChecksum : Obligations.DecodeSequenceVerifiesTheChecksum := by
  refine ⟨fun v p data chks s _ => ?_, verifyChecksum_createChecksum⟩
  have hfed := runEngine_decode_fed v p data chks
  simp only [List.append_assoc (_ :: _), runAll_seeded, runEngine_append _ [_], runEngine_append _ [_, _]]
  generalize runEngine (data.map (.dec5 true) ++ chks.map .poly) (seeded v p) = e at hfed
  have hverify := hfed.trans (execEngine_fed (i := .verify) rfl nofun nofun)
  refine ⟨_, _, _, rfl, hfed.checksumOk_eq, hverify.errors.noError (seeded_noError v p), exec_eq _ _, ?_, rfl, ?_⟩
  · exact execEngine_vok .decend _
  · exact checksumOk_decend e

end Sys2Proof.Machine

/-! Proofs about the repacker, one command at a time (43_repack.md R79 to R83). Each accepted command shifts its operand in after
the bits held and splits the result where it cuts: `toNat_shiftIn` and `lowBits_toNat_add` say so in numbers. -/

namespace Sys2Proof.Machine

/-- A command not rejected for sequence answers the next state of its own rule (R60, R88). -/
theorem exec_accepted {i : Instr} {s : State} (h : sequenceRejects i s.engine = false) :
    exec i s = .next { s with engine := accepted i s.engine } := by
  rw [exec_eq, execEngine_accepted h]

theorem sequenceRejects_enc8 {e : Engine} (hm : e.mode ≠ .dec) (p : Bool) (b : Byte) :
    sequenceRejects (.enc8 p b) e = false := beq_false_of_ne hm

theorem sequenceRejects_encflush {e : Engine} (hm : e.mode ≠ .dec) (p : Bool) :
    sequenceRejects (.encflush p) e = false := beq_false_of_ne hm

theorem sequenceRejects_dec5 {e : Engine} (hm : e.mode ≠ .enc) (p : Bool) (g : Group) :
    sequenceRejects (.dec5 p g) e = false := beq_false_of_ne hm

theorem sequenceRejects_decend {e : Engine} (hm : e.mode ≠ .enc) : sequenceRejects .decend e = false :=
  beq_false_of_ne hm

/-! ### The direction (R78, R20) -/

/-- Settles O37, by the rule of each command. -/
theorem repackerDirectionFollowsTheCommands : Obligations.RepackerDirectionFollowsTheCommands := by
  intro i s t h hr
  rw [exec_engine h, execEngine_accepted hr]
  cases i with
  | nop | poly | hrph | hrpl | fin | verify => exact ⟨rfl, fun _ => ⟨rfl, rfl⟩⟩
  | init | enc8 | encflush | dec5 | decend =>
    exact ⟨rfl, fun hi => absurd hi (by simp [Instr.mnemonic])⟩

/-! ### The padding check (R82) -/

theorem paddingBad_eq_decide {e : Engine} (hm : e.mode ≠ .enc) :
    paddingBad e = decide (5 ≤ e.nbits.toNat ∨ e.acc.toNat ≠ 0) := by
  have hacc : e.acc = 0#12 ↔ e.acc.toNat = 0 := BitVec.toNat_inj.symm
  rw [Bool.eq_iff_iff]
  simp [paddingBad, hm, hacc]

/-- Settles O36: the repacker is emptied either way, and `PaddingError` is raised where the padding is bad. -/
theorem decendChecksThePadding : Obligations.DecendChecksThePadding := by
  intro s hm
  rw [exec_accepted (sequenceRejects_decend hm), accepted, paddingBad_eq_decide hm]
  by_cases hbad : 5 ≤ s.engine.nbits.toNat ∨ s.engine.acc.toNat ≠ 0
  · cases hc : s.engine.cause <;>
      simp [hbad, hc, Engine.record, Engine.raise, Engine.emptyRepacker, Engine.clearOut]
  · simp [hbad, Engine.record, Engine.emptyRepacker, Engine.clearOut]

/-! ### The bits held, as numbers (R18, R79, R81) -/

/-- Shifting a word in below the bits of an accumulator that leaves room for it. -/
theorem toNat_shiftIn {w : Nat} (a : Acc) (x : BitVec w) (h : a.toNat * 2 ^ w + 2 ^ w ≤ 2 ^ 12) :
    ((a <<< w) ||| x.setWidth 12).toNat = a.toNat * 2 ^ w + x.toNat := by
  have hx := x.isLt
  rw [BitVec.toNat_or, BitVec.toNat_shiftLeft, BitVec.toNat_setWidth, Nat.shiftLeft_eq,
    Nat.mod_eq_of_lt (by omega), Nat.mod_eq_of_lt (by omega), ← Nat.shiftLeft_eq,
    Nat.shiftLeft_add_eq_or_of_lt hx]

/-- The low `n + m` bits are the `m` bits from `n` up and the `n` bits below. -/
theorem lowBits_toNat_add (a : Acc) (n m : Nat) :
    (lowBits a (n + m)).toNat = (a.extractLsb' n m).toNat * 2 ^ n + (lowBits a n).toNat := by
  rw [lowBits_toNat, lowBits_toNat, BitVec.extractLsb'_toNat, Nat.shiftRight_eq_div_pow, Nat.pow_add, Nat.mod_mul,
    Nat.mul_comm, Nat.add_comm]

theorem lowBits_toNat_of_lt {a : Acc} {n : Nat} (h : a.toNat < 2 ^ n) : (lowBits a n).toNat = a.toNat := by
  rw [lowBits_toNat, Nat.mod_eq_of_lt h]

theorem lowBits_toNat_lt (a : Acc) (n : Nat) : (lowBits a n).toNat < 2 ^ n := by
  rw [lowBits_toNat]
  exact Nat.mod_lt _ (Nat.two_pow_pos n)

theorem acc_shift_lt {e : Engine} (h : e.RepackerOk) {w : Nat} (x : BitVec w) :
    e.acc.toNat * 2 ^ w + x.toNat < 2 ^ (e.nbits.toNat + w) := by
  have hx := x.isLt
  calc e.acc.toNat * 2 ^ w + x.toNat
    _ < (e.acc.toNat + 1) * 2 ^ w := by rw [Nat.succ_mul]; omega
    _ ≤ 2 ^ e.nbits.toNat * 2 ^ w := Nat.mul_le_mul_right _ h.1
    _ = 2 ^ (e.nbits.toNat + w) := (Nat.pow_add ..).symm

/-- What `ENC8` shifts in fits in `ACC`. -/
theorem encAcc_toNat {e : Engine} (h : e.RepackerOk) (hm : e.mode ≠ .dec) (b : Byte) :
    (encAcc e b).toNat = e.acc.toNat * 256 + b.toNat := by
  have hle : 2 ^ e.nbits.toNat ≤ 2 ^ 4 := Nat.pow_le_pow_right (by decide) (nbits_le_of_not_dec h hm)
  have hacc := h.1
  exact toNat_shiftIn e.acc b (by omega)

/-- What `DEC5` shifts in fits in `ACC`. -/
theorem decAcc_toNat {e : Engine} (h : e.RepackerOk) (g : Group) : (decAcc e g).toNat = e.acc.toNat * 32 + g.toNat := by
  have hle : 2 ^ e.nbits.toNat ≤ 2 ^ 7 := Nat.pow_le_pow_right (by decide) (nbits_le_seven h)
  have hacc := h.1
  exact toNat_shiftIn e.acc g (by omega)

/-! ### What stands in `OUT` (R23) -/

theorem setWidth_five_eight (g : Group) : (g.setWidth 8).setWidth 5 = g :=
  (BitVec.setWidth_setWidth_of_le g (by decide)).trans (BitVec.setWidth_eq g)

theorem toNat_setWidth_eight (g : Group) : (g.setWidth 8).toNat = g.toNat :=
  BitVec.toNat_setWidth_of_le (by decide)

@[simp] theorem outOfGroups_one (g : Group) : outOfGroups [g] = ⟨g.setWidth 8, 0, 1⟩ := rfl

@[simp] theorem outOfGroups_two (g g' : Group) : outOfGroups [g, g'] = ⟨g.setWidth 8, g'.setWidth 8, 2⟩ := rfl

/-- The groups put into `OUT` are the groups read from it. -/
theorem outGroups_outOfGroups {gs : List Group} (h : gs.length ≤ 2) : outGroups (outOfGroups gs) = gs := by
  match gs, h with
  | [], _ => rfl
  | [g], _ => exact congrArg ([·]) (setWidth_five_eight g)
  | [g, g'], _ => exact congrArg₂ ([·, ·]) (setWidth_five_eight g) (setWidth_five_eight g')

/-! ### `ENC8` (R79) -/

/-- The loop of R79 stops below five bits. -/
theorem takeGroups_of_lt (a : Acc) {n : Nat} (h : n < 5) : takeGroups a n = [] :=
  List.eq_nil_of_length_eq_zero (by rw [takeGroups_length]; omega)

/-- One group is given out while fewer than ten bits are there. -/
theorem takeGroups_one (a : Acc) {n : Nat} (h : n < 5) : takeGroups a (n + 5) = [a.extractLsb' n 5] := by
  rw [takeGroups, takeGroups_of_lt a h]

/-- Two groups are given out from ten bits up. -/
theorem takeGroups_two (a : Acc) {n : Nat} (h : n < 5) :
    takeGroups a (n + 5 + 5) = [a.extractLsb' (n + 5) 5, a.extractLsb' n 5] := by
  rw [takeGroups, takeGroups_one a h]

/-- The groups given out, followed by the bits held, are the number taken in. -/
theorem enc8_cases {e : Engine} (h : e.RepackerOk) (hm : e.mode ≠ .dec) (b : Byte) :
    ∃ n < 5, bitsLeft (e.nbits.toNat + 8) = n ∧
      ((∃ g : Group, e.nbits.toNat + 8 = n + 5 ∧ enc8Groups e b = [g] ∧
        e.acc.toNat * 256 + b.toNat = g.toNat * 2 ^ n + (lowBits (encAcc e b) n).toNat) ∨
      (∃ g g' : Group, e.nbits.toNat + 8 = n + 5 + 5 ∧ enc8Groups e b = [g, g'] ∧
        e.acc.toNat * 256 + b.toNat = (g.toNat * 32 + g'.toNat) * 2 ^ n + (lowBits (encAcc e b) n).toNat)) := by
  have hle := nbits_le_of_not_dec h hm
  have hfit : (encAcc e b).toNat < 2 ^ (e.nbits.toNat + 8) := encAcc_toNat h hm b ▸ acc_shift_lt h b
  rw [← encAcc_toNat h hm b, ← lowBits_toNat_of_lt hfit, enc8Groups, bitsLeft_eq_mod]
  have hn : (e.nbits.toNat + 8) % 5 < 5 := Nat.mod_lt _ (by decide)
  refine ⟨_, hn, rfl, ?_⟩
  rcases Nat.lt_or_ge e.nbits.toNat 2 with h2 | h2
  · have hbits : e.nbits.toNat + 8 = (e.nbits.toNat + 8) % 5 + 5 := by omega
    generalize (e.nbits.toNat + 8) % 5 = n at hn hbits
    rw [hbits]
    exact .inl ⟨_, rfl, takeGroups_one _ hn, lowBits_toNat_add _ n 5⟩
  · have hbits : e.nbits.toNat + 8 = (e.nbits.toNat + 8) % 5 + 5 + 5 := by omega
    generalize (e.nbits.toNat + 8) % 5 = n at hn hbits
    rw [hbits]
    refine .inr ⟨_, _, rfl, takeGroups_two _ hn, ?_⟩
    rw [lowBits_toNat_add _ (n + 5), lowBits_toNat_add _ n, Nat.pow_add]
    ring

/-- Every field an accepted `ENC8` leaves. -/
theorem accepted_enc8 (p : Bool) (b : Byte) (e : Engine) :
    accepted (.enc8 p b) e = { e with
      chk := if p then polyFeed e.chk (enc8Groups e b) else e.chk
      acc := lowBits (encAcc e b) (bitsLeft (e.nbits.toNat + 8))
      nbits := BitVec.ofNat 4 (bitsLeft (e.nbits.toNat + 8))
      mode := .enc
      out := outOfGroups (enc8Groups e b) } := by
  cases p <;> rfl

/-- Settles O33: the two cases of `enc8_cases`, with one group given out and with two. -/
theorem enc8GivesOutEveryCompleteGroup : Obligations.Enc8GivesOutEveryCompleteGroup := by
  intro p b s hs hm
  refine ⟨_, exec_accepted (sequenceRejects_enc8 hm p b), ?_⟩
  obtain ⟨n, hn, hleft, hgroups⟩ := enc8_cases hs hm b
  have hnb : (BitVec.ofNat 4 n).toNat = n := Nat.mod_eq_of_lt (by omega)
  have hlt := lowBits_toNat_lt (encAcc s.engine b) n
  have hg32 (g : Group) : g.toNat < 32 := g.isLt
  rw [accepted_enc8, hleft]
  rcases hgroups with ⟨g, hbits, hgs, hval⟩ | ⟨g, g', hbits, hgs, hval⟩
  · simp only [hgs, outOfGroups_one, polyFeed_cons, polyFeed_nil, toNat_setWidth_eight, hnb, BitVec.ofNat_toNat,
      BitVec.setWidth_eq, hbits]
    refine ⟨?_, ?_, hlt, hg32 g, by decide, fun _ => ⟨trivial, hval⟩, fun h => absurd h (by decide), ?_, trivial⟩
    · rw [Nat.add_div_right n (by decide), Nat.div_eq_of_lt hn]; rfl
    · rw [Nat.add_mod_right, Nat.mod_eq_of_lt hn]
    · cases p <;> rfl
  · simp only [hgs, outOfGroups_two, polyFeed_cons, polyFeed_nil, toNat_setWidth_eight, hnb, BitVec.ofNat_toNat,
      BitVec.setWidth_eq, hbits]
    refine ⟨?_, ?_, hlt, hg32 g, hg32 g', fun h => absurd h (by decide), fun _ => hval, ?_, trivial⟩
    · rw [Nat.add_div_right _ (by decide), Nat.add_div_right n (by decide), Nat.div_eq_of_lt hn]; rfl
    · rw [Nat.add_mod_right, Nat.add_mod_right, Nat.mod_eq_of_lt hn]
    · cases p <;> rfl

/-! ### `ENCFLUSH` (R80) -/

/-- Every field an accepted `ENCFLUSH` leaves. -/
theorem accepted_encflush (p : Bool) (e : Engine) :
    accepted (.encflush p) e = { e with
      chk := if p then polyFeed e.chk (flushGroups e) else e.chk
      acc := 0, nbits := 0, mode := .idle
      out := outOfGroups (flushGroups e) } := by
  cases p <;> rfl

/-- Padding on the right multiplies. -/
theorem padGroup_toNat {a : Acc} {n : Nat} (h : a.toNat < 2 ^ n) :
    (padGroup a n).toNat = a.toNat * 2 ^ (5 - n) % 32 := by
  have hlow : (a.extractLsb' 0 n).toNat = a.toNat := by
    rw [BitVec.extractLsb'_toNat, Nat.shiftRight_zero, Nat.mod_eq_of_lt h]
  rw [padGroup, BitVec.toNat_setWidth, BitVec.toNat_append, hlow, Nat.shiftLeft_eq, BitVec.toNat_ofNat, Nat.zero_mod,
    Nat.or_zero]

/-- Settles O34: the group is `padGroup`, given out where bits are held. -/
theorem encflushPadsTheFinalGroup : Obligations.EncflushPadsTheFinalGroup := by
  intro p s hs hm
  refine ⟨padGroup s.engine.acc s.engine.nbits.toNat, (accepted (.encflush p) s.engine).out,
    (accepted (.encflush p) s.engine).chk, padGroup_toNat hs.1, fun hn => ?_, fun hn => ?_, ?_⟩
  · rw [accepted_encflush, flushGroups, if_pos hn]
    exact ⟨rfl, ite_self _⟩
  · rw [accepted_encflush, flushGroups, if_neg hn]
    exact ⟨rfl, rfl⟩
  · rw [exec_accepted (sequenceRejects_encflush hm p), accepted_encflush]

/-! ### `DEC5` (R81) -/

/-- Every field an accepted `DEC5` leaves. -/
theorem accepted_dec5 (p : Bool) (g : Group) (e : Engine) :
    accepted (.dec5 p g) e = { e with
      chk := if p then polyStep e.chk g else e.chk
      acc := lowBits (decAcc e g) (dec5Left e)
      nbits := BitVec.ofNat 4 (dec5Left e)
      mode := .dec
      out := dec5Out e g } := by
  cases p <;> rfl

theorem dec5Left_of_le {e : Engine} (h : 3 ≤ e.nbits.toNat) : dec5Left e = e.nbits.toNat - 3 := by
  rw [dec5Left, if_pos (by omega)]
  omega

theorem dec5Left_of_lt {e : Engine} (h : e.nbits.toNat < 3) : dec5Left e = e.nbits.toNat + 5 :=
  if_neg (by omega)

theorem dec5Out_of_le {e : Engine} (h : 3 ≤ e.nbits.toNat) (g : Group) :
    dec5Out e g = outOfByte ((decAcc e g).extractLsb' (e.nbits.toNat - 3) 8) := by
  have hidx : e.nbits.toNat + 5 - 8 = e.nbits.toNat - 3 := by omega
  rw [dec5Out, if_pos (by omega), hidx]

theorem dec5Out_of_lt {e : Engine} (h : e.nbits.toNat < 3) (g : Group) : dec5Out e g = ⟨0, 0, 0⟩ :=
  if_neg (by omega)

theorem dec5Left_toNat {e : Engine} (h : e.RepackerOk) : (BitVec.ofNat 4 (dec5Left e)).toNat = dec5Left e :=
  Nat.mod_eq_of_lt (by have := dec5Left_le h; omega)

/-- Settles O35: the number taken in is cut at the byte's low end, where there is a byte. -/
theorem dec5GivesOutACompleteByte : Obligations.Dec5GivesOutACompleteByte := by
  intro p g s hs hm
  have hfit : (decAcc s.engine g).toNat < 2 ^ (s.engine.nbits.toNat + 5) := decAcc_toNat hs g ▸ acc_shift_lt hs g
  refine ⟨lowBits (decAcc s.engine g) (dec5Left s.engine), BitVec.ofNat 4 (dec5Left s.engine), dec5Out s.engine g,
    fun h3 => ?_, fun h3 => ?_, ?_, ?_⟩
  · rw [dec5Left_toNat hs, dec5Left_of_le h3, dec5Out_of_le h3]
    refine ⟨rfl, rfl, rfl, ?_⟩
    have hbits : s.engine.nbits.toNat + 5 = s.engine.nbits.toNat - 3 + 8 := by omega
    rw [← decAcc_toNat hs g, ← lowBits_toNat_of_lt hfit, hbits]
    exact lowBits_toNat_add _ _ 8
  · rw [dec5Left_toNat hs, dec5Left_of_lt h3, dec5Out_of_lt h3, lowBits_toNat_of_lt hfit]
    exact ⟨rfl, rfl, decAcc_toNat hs g⟩
  · rw [dec5Left_toNat hs]
    exact lowBits_toNat_lt _ _
  · rw [exec_accepted (sequenceRejects_dec5 hm p g), accepted_dec5]

/-! ### Feedback (R83) -/

/-- The commands with a feedback bit (R51), as functions of it. -/
def TakesFeedback (f : Bool → Instr) : Prop :=
  (∃ b : Byte, f = fun p => .enc8 p b) ∨ f = .encflush ∨ ∃ g : Group, f = fun p => .dec5 p g

/-- The feedback bit decides about `CHK` alone. -/
theorem TakesFeedback.execEngine_false {f : Bool → Instr} (hf : TakesFeedback f) (e : Engine) :
    execEngine (f false) e = { execEngine (f true) e with chk := e.chk } := by
  have hrej : sequenceRejects (f false) e = sequenceRejects (f true) e := by
    rcases hf with ⟨b, rfl⟩ | rfl | ⟨g, rfl⟩ <;> rfl
  have hacc : accepted (f false) e = { accepted (f true) e with chk := e.chk } := by
    rcases hf with ⟨b, rfl⟩ | rfl | ⟨g, rfl⟩ <;> rfl
  rcases hr : sequenceRejects (f true) e with _ | _
  · rw [execEngine_accepted hr, execEngine_accepted (hrej.trans hr), hacc]
  · rw [execEngine_rejected hr, execEngine_rejected (hrej.trans hr)]
    rfl

theorem TakesFeedback.exec_false {f : Bool → Instr} (hf : TakesFeedback f) {s t : State} (h : exec (f true) s = .next t) :
    exec (f false) s = .next { t with engine := { t.engine with chk := s.engine.chk } } := by
  rw [exec_eq] at h
  cases h
  rw [exec_eq, hf.execEngine_false]

/-- `ENC8` feeds what it gives out; rejected, it does neither. -/
theorem execEngine_enc8_chk (p : Bool) (b : Byte) {e : Engine} (h : e.RepackerOk) :
    (execEngine (.enc8 p b) e).chk =
      if p then polyFeed e.chk (outGroups (execEngine (.enc8 p b) e).out) else e.chk := by
  by_cases hm : e.mode = .dec
  · have hr : sequenceRejects (.enc8 p b) e = true := beq_iff_eq.mpr hm
    rw [execEngine_rejected hr]
    exact (ite_self _).symm
  · have hlen := enc8Groups_length h hm b
    rw [execEngine_accepted (sequenceRejects_enc8 hm p b), accepted_enc8, outGroups_outOfGroups (by omega)]

/-- `ENCFLUSH` feeds what it gives out; rejected, it does neither. -/
theorem execEngine_encflush_chk (p : Bool) (e : Engine) :
    (execEngine (.encflush p) e).chk =
      if p then polyFeed e.chk (outGroups (execEngine (.encflush p) e).out) else e.chk := by
  by_cases hm : e.mode = .dec
  · have hr : sequenceRejects (.encflush p) e = true := beq_iff_eq.mpr hm
    rw [execEngine_rejected hr]
    exact (ite_self _).symm
  · have hlen := flushGroups_length_le e
    rw [execEngine_accepted (sequenceRejects_encflush hm p), accepted_encflush, outGroups_outOfGroups (by omega)]

/-- Settles O38: what each command feeds with `P = 1`, and `TakesFeedback.exec_false` for `P = 0`. -/
theorem feedbackFeedsEachGroupExactlyOnce : Obligations.FeedbackFeedsEachGroupExactlyOnce := by
  refine fun s hs => ⟨fun b t h => ⟨?_, ?_⟩, fun t h => ⟨?_, ?_⟩, fun g t h hm => ⟨?_, ?_⟩⟩
  · rw [exec_engine h]
    exact execEngine_enc8_chk true b hs
  · exact TakesFeedback.exec_false (.inl ⟨b, rfl⟩) h
  · rw [exec_engine h]
    exact execEngine_encflush_chk true s.engine
  · exact TakesFeedback.exec_false (.inr (.inl rfl)) h
  · rw [exec_engine h, execEngine_accepted (sequenceRejects_dec5 hm true g), accepted_dec5]
    rfl
  · exact TakesFeedback.exec_false (.inr (.inr ⟨g, rfl⟩)) h

end Sys2Proof.Machine

/-! Proofs about whole repack sequences (43_repack.md R84, R85). A run keeps the stream of bits: what the repacker held, then what
was taken in, is what was given out, then what it holds. The source's functions cut the same stream. -/

namespace Sys2Proof.Machine

/-! ### What a run gives out -/

/-- What commands run in order give out. -/
def collected {α : Type} (given : Out → List α) : List Instr → Engine → List α
  | [], _ => []
  | i :: is, e => given (execEngine i e).out ++ collected given is (execEngine i e)

/-- The helper is what `runCollect` collects. -/
theorem runCollect_eq {α : Type} (given : Out → List α) (is : List Instr) (s : State) :
    runCollect given is s = some ({ s with engine := runEngine is s.engine }, collected given is s.engine) := by
  induction is generalizing s with
  | nil => rfl
  | cons i is ih =>
    rw [runCollect, exec_eq]
    simp only [ih, Option.map_some, runEngine_cons, collected]

theorem collected_append {α : Type} (given : Out → List α) (is js : List Instr) (e : Engine) :
    collected given (is ++ js) e = collected given is e ++ collected given js (runEngine is e) := by
  induction is generalizing e with
  | nil => rfl
  | cons i is ih => rw [List.cons_append, collected, ih, ← List.append_assoc]; rfl

theorem runEngine_repackerOk (is : List Instr) {e : Engine} (h : e.RepackerOk) : (runEngine is e).RepackerOk := by
  induction is generalizing e with
  | nil => exact h
  | cons i is ih => exact ih (execEngine_repackerOk i e h)

/-! ### Streams of bits -/

theorem streamBits_append {w : Nat} (xs ys : List (BitVec w)) : streamBits (xs ++ ys) = streamBits xs ++ streamBits ys :=
  List.flatMap_append

theorem mem_msbFirst {w n : Nat} {x : BitVec w} {b : Bool} : b ∈ msbFirst x n ↔ ∃ i < n, x.getLsbD i = b := by
  rw [msbFirst, List.mem_map]
  constructor
  · rintro ⟨i, hi, hbit⟩
    exact ⟨n - 1 - i, by have := List.mem_range.mp hi; omega, hbit⟩
  · rintro ⟨i, hi, hbit⟩
    have hidx : n - 1 - (n - 1 - i) = i := by omega
    exact ⟨n - 1 - i, List.mem_range.mpr (by omega), by rw [hidx, hbit]⟩

theorem streamBits_length {w : Nat} (xs : List (BitVec w)) : (streamBits xs).length = w * xs.length := by
  induction xs with
  | nil => rfl
  | cons x xs ih => rw [streamBits_cons, List.length_append, msbFirst_length, ih, List.length_cons, Nat.mul_succ, Nat.add_comm]

/-- A word is packed from its bits, and these are the word's bits again. -/
theorem msbFirst_packBits {w : Nat} {bs : List Bool} (h : bs.length = w) : msbFirst (packBits w bs) w = bs := by
  subst h
  have hbs : msbFirst (BitVec.ofBoolListBE bs) bs.length = bs := by
    refine List.ext_getElem (msbFirst_length _ _) fun i hi hi' => ?_
    have hbit := BitVec.getMsbD_ofBoolListBE (bs := bs) (i := i)
    rw [BitVec.getMsbD, decide_eq_true hi', Bool.true_and, List.getD_eq_getElem _ _ hi'] at hbit
    simpa [msbFirst] using hbit
  have hpack := congrArg (msbFirst · bs.length) (packBits_msbFirst (BitVec.ofBoolListBE bs))
  simpa only [hbs] using hpack

/-- The groups cut from a stream are the stream and at most four zeros (R84). -/
theorem streamBits_groupsOfBits (bs : List Bool) :
    ∃ k < 5, streamBits (groupsOfBits bs) = bs ++ List.replicate k false := by
  induction bs using groupsOfBits.induct with
  | case1 b4 b3 b2 b1 b0 rest ih =>
    obtain ⟨k, hk, hrest⟩ := ih
    refine ⟨k, hk, ?_⟩
    have hfive : [b4, b3, b2, b1, b0].length = 5 := rfl
    rw [groupsOfBits, streamBits_cons, msbFirst_packBits hfive, hrest]
    rfl
  | case2 => exact ⟨0, by decide, rfl⟩
  | case3 rest hlong hne =>
    have hlt : rest.length < 5 := by
      match rest, hlong with
      | [], _ | [_], _ | [_, _], _ | [_, _, _], _ | [_, _, _, _], _ => simp
      | _ :: _ :: _ :: _ :: _ :: _, h => exact (h _ _ _ _ _ _ rfl).elim
    have hpos : 0 < rest.length := List.length_pos_iff.mpr hne
    refine ⟨5 - rest.length, by omega, ?_⟩
    rw [groupsOfBits_of_length_lt hne hlt, streamBits_cons, ← packBits_append_replicate 5 rest (5 - rest.length),
      msbFirst_packBits (by simp; omega), streamBits_nil, List.append_nil]

theorem groupsOfBits_length (bs : List Bool) : (groupsOfBits bs).length = (bs.length + 4) / 5 := by
  obtain ⟨k, hk, hstream⟩ := streamBits_groupsOfBits bs
  have hlen := congrArg List.length hstream
  rw [streamBits_length, List.length_append, List.length_replicate] at hlen
  omega

theorem bytesOfBits_append_of_length_eq {bs : List Bool} (h : bs.length = 8) (rest : List Bool) :
    bytesOfBits (bs ++ rest) = packBits 8 bs :: bytesOfBits rest := by
  match bs, h with
  | [_, _, _, _, _, _, _, _], _ => rfl

theorem bytesOfBits_of_length_lt {bs : List Bool} (h : bs.length < 8) : bytesOfBits bs = [] := by
  rw [bytesOfBits.eq_def]
  split
  · simp only [List.length_cons] at h
    omega
  · rfl

/-- Whole bytes come back from their stream, and fewer than eight bits after them are dropped. -/
theorem bytesOfBits_streamBits_append (bs : List Byte) {rest : List Bool} (h : rest.length < 8) :
    bytesOfBits (streamBits bs ++ rest) = bs := by
  induction bs with
  | nil => exact bytesOfBits_of_length_lt h
  | cons b bs ih =>
    rw [streamBits_cons, List.append_assoc, bytesOfBits_append_of_length_eq (msbFirst_length b 8), packBits_msbFirst, ih]

/-- Cutting the stream of groups into bytes and fewer than eight bits is what `decodeToBytes` and `leftoverBits` do (R85). -/
theorem decodeToBytes_of_streamBits {gs : List Group} {bs : List Byte} {rest : List Bool}
    (h : streamBits gs = streamBits bs ++ rest) (hrest : rest.length < 8) :
    decodeToBytes gs = bs ∧ leftoverBits gs = rest ∧ bs.length = 5 * gs.length / 8 := by
  have hlen := congrArg List.length h
  rw [List.length_append, streamBits_length, streamBits_length] at hlen
  have hbytes : bs.length = 5 * gs.length / 8 := by omega
  refine ⟨?_, ?_, hbytes⟩
  · rw [decodeToBytes, h, bytesOfBits_streamBits_append bs hrest]
  · rw [leftoverBits, h, ← hbytes, List.drop_left' (streamBits_length bs)]

/-! ### Encoding (R84) -/

/-- `ENC8` for each of these bytes gives out the first groups cut from the bits held and the bytes, and holds the rest. -/
theorem groupsOfBits_collected_enc8 (p : Bool) (bs : List Byte) {e : Engine} (he : e.RepackerOk) (hm : e.mode ≠ .dec) :
    groupsOfBits (e.heldBits ++ streamBits bs) =
      collected outGroups (bs.map (.enc8 p)) e ++ groupsOfBits (runEngine (bs.map (.enc8 p)) e).heldBits ∧
    (runEngine (bs.map (.enc8 p)) e).mode ≠ .dec := by
  induction bs generalizing e with
  | nil => exact ⟨by rw [streamBits_nil, List.append_nil]; rfl, hm⟩
  | cons b bs ih =>
    have hlen := enc8Groups_length he hm b
    have hexec := execEngine_accepted (sequenceRejects_enc8 hm p b)
    have hmode : (execEngine (.enc8 p b) e).mode ≠ .dec := by
      rw [hexec]
      exact nofun
    obtain ⟨hrest, hend⟩ := ih (execEngine_repackerOk _ e he) hmode
    refine ⟨?_, hend⟩
    rw [streamBits_cons, groupsOfBits_enc8 (nbits_le_of_not_dec he hm) p, ← hexec, hrest, List.map_cons, collected,
      hexec, accepted_out, outGroups_outOfGroups (by omega), List.append_assoc, runEngine_cons, hexec]

/-- What the encoder gives out is what it feeds with `P` (R83). -/
theorem runEngine_encode_chk (p : Bool) {is : List Instr} (his : ∀ i ∈ is, (∃ b, i = .enc8 p b) ∨ i = .encflush p)
    {e : Engine} (he : e.RepackerOk) :
    (runEngine is e).chk = if p then polyFeed e.chk (collected outGroups is e) else e.chk := by
  induction is generalizing e with
  | nil => exact (ite_self _).symm
  | cons i is ih =>
    have hchk : (execEngine i e).chk = if p then polyFeed e.chk (outGroups (execEngine i e).out) else e.chk := by
      rcases his i List.mem_cons_self with ⟨b, rfl⟩ | rfl
      · exact execEngine_enc8_chk p b he
      · exact execEngine_encflush_chk p e
    rw [runEngine_cons, ih (fun j hj => his j (List.mem_cons_of_mem i hj)) (execEngine_repackerOk i e he), hchk, collected,
      polyFeed_append]
    cases p <;> rfl

theorem mem_encdataCommands (p : Bool) (bs : List Byte) :
    ∀ i ∈ encdataCommands p bs, (∃ b, i = .enc8 p b) ∨ i = .encflush p := by
  intro i hi
  rcases List.mem_append.mp hi with hi | hi
  · obtain ⟨b, -, rfl⟩ := List.mem_map.mp hi
    exact .inl ⟨b, rfl⟩
  · exact .inr (List.mem_singleton.mp hi)

theorem heldBits_of_idle {e : Engine} (he : e.RepackerOk) (hm : e.mode = .idle) : e.heldBits = [] :=
  List.eq_nil_of_length_eq_zero ((msbFirst_length _ _).trans (he.2.1 hm))

/-- `ENCDATA` gives out the groups cut from the bits held and the bytes, and empties the repacker. -/
theorem encdata_gives (p : Bool) (bs : List Byte) {e : Engine} (he : e.RepackerOk) (hm : e.mode ≠ .dec) :
    collected outGroups (encdataCommands p bs) e = groupsOfBits (e.heldBits ++ streamBits bs) ∧
      (runEngine (encdataCommands p bs) e).mode = .idle ∧ (runEngine (encdataCommands p bs) e).nbits = 0 := by
  obtain ⟨hgroups, hend⟩ := groupsOfBits_collected_enc8 p bs he hm
  have hok := runEngine_repackerOk (bs.map (.enc8 p)) he
  rw [encdataCommands, collected_append, runEngine_append, hgroups]
  generalize runEngine (bs.map (.enc8 p)) e = e' at hend hok
  have hlen := flushGroups_length_le e'
  rw [groupsOfBits_heldBits (nbits_le_of_not_dec hok hend), runEngine_cons, collected,
    execEngine_accepted (sequenceRejects_encflush hend p), accepted_encflush, outGroups_outOfGroups (by omega)]
  exact ⟨congrArg _ (List.append_nil _), rfl, rfl⟩

/-- Settles O55: from an idle repacker the stream is that of the bytes alone. -/
theorem encodingGivesTheSourcesGroups : Obligations.EncodingGivesTheSourcesGroups := by
  intro p bs s hs hm
  obtain ⟨hgroups, hidle, hnbits⟩ := encdata_gives p bs hs (by rw [hm]; exact nofun)
  rw [heldBits_of_idle hs hm, List.nil_append] at hgroups
  refine ⟨_, (runCollect_eq _ _ s).trans (by rw [hgroups]; rfl), ?_, ?_, hidle, hnbits⟩
  · rw [encodeBytes, groupsOfBits_length, streamBits_length]
  · rw [encodeBytes, ← hgroups]
    exact runEngine_encode_chk p (mem_encdataCommands p bs) hs

/-! ### Decoding (R85) -/

/-- Shifting a word in puts its bits after those there. -/
theorem msbFirst_shiftIn {w n : Nat} (a : Acc) (x : BitVec w) (h : n + w ≤ 12) :
    msbFirst ((a <<< w) ||| x.setWidth 12) (n + w) = msbFirst a n ++ msbFirst x w := by
  have hhigh (i : Nat) (hi : i < n) :
      (((a <<< w) ||| x.setWidth 12).extractLsb' w n).getLsbD i = a.getLsbD i := by
    have hw : w + i < 12 := by omega
    simp [hi, hw, BitVec.getLsbD_eq_getElem (show i < 12 by omega)]
  have hlow (i : Nat) (hi : i < w) : ((a <<< w) ||| x.setWidth 12).getLsbD i = x.getLsbD i := by
    have hw : i < 12 := by omega
    simp [hi, hw]
  rw [Nat.add_comm, msbFirst_add, msbFirst_congr hhigh, msbFirst_congr hlow]

/-- From `e` to `e'` a decoding repacker takes in these groups and gives out these bytes: the stream of bits is kept. -/
structure Engine.Decodes (gs : List Group) (bs : List Byte) (e e' : Engine) : Prop where
  stream : e.heldBits ++ streamBits gs = streamBits bs ++ e'.heldBits
  repackerOk : e'.RepackerOk
  mode : e'.mode ≠ .enc
  errPad : e'.errPad = e.errPad

theorem Engine.Decodes.trans {gs hs : List Group} {bs cs : List Byte} {e e' e'' : Engine}
    (h : Engine.Decodes gs bs e e') (h' : Engine.Decodes hs cs e' e'') :
    Engine.Decodes (gs ++ hs) (bs ++ cs) e e'' := by
  refine ⟨?_, h'.repackerOk, h'.mode, h'.errPad.trans h.errPad⟩
  rw [streamBits_append, streamBits_append, ← List.append_assoc, h.stream, List.append_assoc, h'.stream, List.append_assoc]

/-- R81: the bits held and the group are the byte given out, if there is one, and the bits held after. -/
theorem dec5_decodes (p : Bool) (g : Group) {e : Engine} (he : e.RepackerOk) (hm : e.mode ≠ .enc) :
    Engine.Decodes [g] (outBytes (execEngine (.dec5 p g) e).out) e (execEngine (.dec5 p g) e) := by
  refine ⟨?_, execEngine_repackerOk _ e he, ?_, ?_⟩ <;> rw [execEngine_accepted (sequenceRejects_dec5 hm p g)]
  · have hle := nbits_le_seven he
    have hleft := dec5Left_le he
    have hheld : (accepted (.dec5 p g) e).heldBits = msbFirst (decAcc e g) (dec5Left e) := heldBits_hold (by omega) _ _ _
    have hin : msbFirst (decAcc e g) (e.nbits.toNat + 5) = e.heldBits ++ msbFirst g 5 := msbFirst_shiftIn e.acc g (by omega)
    rw [hheld, accepted_dec5, streamBits_cons, streamBits_nil, List.append_nil, ← hin]
    change _ = streamBits (outBytes (dec5Out e g)) ++ _
    rcases Nat.lt_or_ge e.nbits.toNat 3 with h3 | h3
    · rw [dec5Left_of_lt h3, dec5Out_of_lt h3]
      rfl
    · have hbits : e.nbits.toNat + 5 = e.nbits.toNat - 3 + 8 := by omega
      rw [dec5Left_of_le h3, dec5Out_of_le h3, hbits, msbFirst_add]
      rfl
  · exact nofun
  · rw [accepted_dec5]

theorem runEngine_dec5_decodes (p : Bool) (gs : List Group) {e : Engine} (he : e.RepackerOk) (hm : e.mode ≠ .enc) :
    Engine.Decodes gs (collected outBytes (gs.map (.dec5 p)) e) e (runEngine (gs.map (.dec5 p)) e) := by
  induction gs generalizing e with
  | nil => exact ⟨List.append_nil _, he, hm, rfl⟩
  | cons g gs ih =>
    have hg := dec5_decodes p g he hm
    exact hg.trans (ih hg.repackerOk hg.mode)

/-- Bits held are all zero exactly when `ACC` is. -/
theorem true_mem_heldBits {e : Engine} (he : e.RepackerOk) : true ∈ e.heldBits ↔ e.acc.toNat ≠ 0 := by
  rw [Engine.heldBits, mem_msbFirst]
  constructor
  · rintro ⟨i, -, hbit⟩ h0
    rw [BitVec.getLsbD, h0, Nat.zero_testBit] at hbit
    exact Bool.noConfusion hbit
  · intro hne
    obtain ⟨i, hbit⟩ := Nat.exists_testBit_of_ne_zero hne
    refine ⟨i, ?_, hbit⟩
    by_contra hi
    have hlt := he.1.trans_le (Nat.pow_le_pow_right (by decide) (Nat.not_lt.mp hi))
    rw [Nat.testBit_lt_two_pow hlt] at hbit
    exact Bool.noConfusion hbit

/-- Settles O56: the run cuts the stream of the groups into bytes and the bits held, and `encodeBytes` puts only zeros after the
stream of the bytes. -/
theorem decodingGivesTheSourcesBytes : Obligations.DecodingGivesTheSourcesBytes := by
  refine ⟨fun p gs s hs hm => ?_, fun bs => ?_⟩
  · obtain ⟨hstream, hok, hmode, herr⟩ := runEngine_dec5_decodes p gs hs (by rw [hm]; exact nofun)
    have hlen : (runEngine (gs.map (.dec5 p)) s.engine).heldBits.length =
      (runEngine (gs.map (.dec5 p)) s.engine).nbits.toNat := msbFirst_length _ _
    have hle := nbits_le_seven hok
    rw [heldBits_of_idle hs hm, List.nil_append] at hstream
    obtain ⟨hbytes, hleft, hcount⟩ := decodeToBytes_of_streamBits hstream (by omega)
    refine ⟨_, _, (runCollect_eq _ _ s).trans (by rw [hbytes]), by rw [hbytes, hcount],
      decendChecksThePadding _ hmode, fun h0 => ?_⟩
    rw [hleft, true_mem_heldBits hok, hlen]
    simp [herr, h0, or_comm]
  · obtain ⟨k, hk, hstream⟩ := streamBits_groupsOfBits (streamBits bs)
    have hk' : (List.replicate k false).length < 5 := by rwa [List.length_replicate]
    obtain ⟨hbytes, hleft, -⟩ := decodeToBytes_of_streamBits hstream (by omega)
    rw [encodeBytes, hleft]
    exact ⟨hbytes, by simp, hk'⟩

end Sys2Proof.Machine

/-! Proofs about the three errors (60_exceptions.md). `raisingAnErrorRecordsIt` says what one raise writes, and `State.nextError`
which error the next step raises: `step_errSeq` and `step_errPad` read a bit a step sets as that error, and
`step_sameErrors` the whole record. -/

namespace Sys2Proof.Machine

/-! ### One raise (R89) -/

theorem raise_eq (k : EngineError) (e : Engine) :
    e.raise k = { e with
      errIll := e.errIll || k == .illegalCommand
      errSeq := e.errSeq || k == .sequenceError
      errPad := e.errPad || k == .paddingError
      cause := if e.cause = none then some k else e.cause } := by
  rw [← raise_cause_eq]
  rfl

/-- Settles O44: of the three sticky bits only the error's own is written. -/
theorem raisingAnErrorRecordsIt : Obligations.RaisingAnErrorRecordsIt := by
  intro e
  refine ⟨?_, ?_, ?_⟩ <;> simp [raise_eq]

/-! ### What is rejected, and how (R88) -/

/-- A word that matches no row does not decode (R56). -/
theorem decode_error_of_matches_none {w : Word} (h : ∀ r ∈ opcodeTable, w &&& r.mask ≠ r.pattern) :
    ∃ why, decode w = .error why :=
  decode_error_iff.mpr fun hd =>
    have ⟨r, hr, hm⟩ := decodes_iff_matches.mp hd
    h r hr hm

/-- Settles O11: such a word does not decode, so the step only clears `OUT` and raises `IllegalCommand`. -/
theorem illegalWordIsRecordedAndNotLatched : Obligations.IllegalWordIsRecordedAndNotLatched := by
  intro s rest w hp hw
  obtain ⟨why, hd⟩ := decode_error_of_matches_none hw
  obtain ⟨hill, -, -⟩ := raisingAnErrorRecordsIt s.engine.clearOut
  refine ⟨?_, rfl⟩
  calc step s
    _ = rejectIllegal (s.advance rest) := step_illegalWrite hp hd
    _ = .next { s.advance rest with engine := s.engine.clearOut.raise .illegalCommand } := rfl
    _ = _ := by rw [hill]; rfl

/-- What a step that serves an illegal word does to the engine (R87). -/
theorem step_engine_of_nextIllegal {s t : State} (h : step s = .next t) (hl : s.NextIllegal) :
    t.engine = s.engine.clearOut.raise .illegalCommand := by
  obtain ⟨w, rest, why, hp, hd⟩ := nextIllegal_iff.mp hl
  rw [step_illegalWrite hp hd] at h
  cases h
  rfl

theorem mode_ne_enc_of_paddingBad {e : Engine} (h : paddingBad e = true) : e.mode ≠ .enc := by
  intro hm
  simp [paddingBad, hm] at h

/-- Bad padding raises its error and does not keep `DECEND` from emptying the repacker (R82, R88). -/
theorem exec_decend_of_paddingBad {s : State} (h : paddingBad s.engine = true) :
    exec .decend s = .next { s with engine := (s.engine.clearOut.raise .paddingError).emptyRepacker } := by
  rw [exec_accepted (sequenceRejects_decend (mode_ne_enc_of_paddingBad h)), accepted, if_pos h]
  rfl

/-- Settles O48: each of the three answers one raise after Exec's `OUT <- 0`, and bad padding the emptied repacker too. -/
theorem rejectedCommandsHaveNoOtherEffect : Obligations.RejectedCommandsHaveNoOtherEffect := by
  refine ⟨fun i s hr => ?_, fun s t hl h => ?_, fun s hp => ?_⟩ <;>
    obtain ⟨hill, hseq, hpad⟩ := raisingAnErrorRecordsIt s.engine.clearOut
  · rw [exec_eq, execEngine_rejected hr, hseq]
    rfl
  · rw [step_engine_of_nextIllegal h hl, hill]
    rfl
  · rw [exec_decend_of_paddingBad hp, hpad]
    rfl

/-! ### Which error a step raises (R90, R91, R92) -/

theorem commandError_eq_sequenceError_iff {i : Instr} {e : Engine} :
    commandError i e = some .sequenceError ↔ sequenceRejects i e = true := by
  refine ⟨fun h => ?_, commandError_of_rejected⟩
  by_contra hr
  rw [commandError, if_neg hr] at h
  split at h <;> simp at h

theorem commandError_eq_paddingError_iff {i : Instr} {e : Engine} :
    commandError i e = some .paddingError ↔ i = .decend ∧ paddingBad e = true := by
  constructor
  · intro h
    by_contra hp
    rw [commandError, if_neg hp] at h
    split at h <;> simp at h
  · rintro ⟨rfl, hp⟩
    exact commandError_of_paddingBad hp

/-- A command neither rejected nor ending on bad padding raises nothing (R92). -/
theorem commandError_eq_none {i : Instr} {e : Engine} (hr : sequenceRejects i e = false)
    (hp : i = .decend → paddingBad e = false) : commandError i e = none := by
  have hp' : ¬(i = .decend ∧ paddingBad e = true) := fun ⟨hi, hb⟩ => by simp [hp hi] at hb
  simp [commandError, hr, hp']

/-- Every error but `IllegalCommand` is raised by a legal command. -/
theorem nextError_eq_some_iff {s : State} {k : EngineError} (hk : k ≠ .illegalCommand) :
    s.nextError = some k ↔ ∃ i, s.nextInstr = some i ∧ commandError i s.engine = some k := by
  cases hi : s.nextInstr with
  | some i => simp [nextError_of_instr hi]
  | none =>
    by_cases hl : s.NextIllegal
    · simp [nextError_of_illegal hl, hk.symm]
    · simp [nextError_of_none hi hl]

/-- Neither a reset nor a legal `INIT` raises an error. -/
theorem nextError_of_startsAfresh {s : State} (h : s.NextStartsAfresh) : s.nextError = none := by
  have hl : ¬s.NextIllegal := fun hl => not_startsAfresh_of_nextIllegal hl h
  rcases h with hr | hi | hi
  · obtain ⟨rest, hp⟩ := nextReset_iff.mp hr
    exact nextError_of_none (by simp [State.nextInstr, State.nextWord, hp]) hl
  · exact nextError_of_instr hi
  · exact nextError_of_instr hi

/-- A step sets `ERR_SEQ` exactly when it serves a command that is rejected for sequence. -/
theorem step_errSeq {s t : State} (h : step s = .next t) (h0 : s.engine.errSeq = false) :
    t.engine.errSeq = true ↔ ∃ i, s.nextInstr = some i ∧ sequenceRejects i s.engine = true := by
  simp only [← commandError_eq_sequenceError_iff, ← nextError_eq_some_iff (k := .sequenceError) nofun]
  by_cases hf : s.NextStartsAfresh
  · obtain ⟨v, e⟩ := step_startsAfresh h hf
    simp [e, Engine.reset, nextError_of_startsAfresh hf]
  · simp [(step_sameErrors h hf).errSeq, h0]

/-- A step sets `ERR_PAD` exactly when it serves a `DECEND` that finds bad padding. -/
theorem step_errPad {s t : State} (h : step s = .next t) (h0 : s.engine.errPad = false) :
    t.engine.errPad = true ↔ s.nextInstr = some .decend ∧ paddingBad s.engine = true := by
  have hpad : s.nextError = some .paddingError ↔ s.nextInstr = some .decend ∧ paddingBad s.engine = true := by
    simp [nextError_eq_some_iff (k := .paddingError) nofun, commandError_eq_paddingError_iff]
  rw [← hpad]
  by_cases hf : s.NextStartsAfresh
  · obtain ⟨v, e⟩ := step_startsAfresh h hf
    simp [e, Engine.reset, nextError_of_startsAfresh hf]
  · simp [(step_sameErrors h hf).errPad, h0]

/-- The cases of R90, one command at a time. -/
theorem sequenceRejects_iff {i : Instr} {e : Engine} :
    sequenceRejects i e = true ↔
      ((∃ p b, i = .enc8 p b) ∨ ∃ p, i = .encflush p) ∧ e.mode = .dec ∨
      ((∃ p g, i = .dec5 p g) ∨ i = .decend) ∧ e.mode = .enc ∨
      i = .fin ∧ e.mode = .enc ∧ e.nbits ≠ 0 := by
  cases i <;> simp [sequenceRejects]

/-- Settles O45: the command served is one that R90 rejects. -/
theorem sequenceErrorInExactlyTheseCases : Obligations.SequenceErrorInExactlyTheseCases := by
  intro s t h h0
  rw [step_errSeq h h0]
  cases s.nextInstr with
  | none => simp
  | some i => simpa using sequenceRejects_iff

/-- Settles O46: the command served is a `DECEND` that finds the padding bad. -/
theorem paddingErrorOnlyByDecend : Obligations.PaddingErrorOnlyByDecend := by
  intro s t h h0
  rw [step_errPad h h0]
  simp [paddingBad]

/-- Settles O49: the step adds to the record the one error it raises, which each clause names. -/
theorem atMostOneErrorPerCommand : Obligations.AtMostOneErrorPerCommand := by
  intro s t h hf
  obtain ⟨hill, hseq, hpad, hcause⟩ := step_sameErrors h hf
  refine ⟨fun hl => ?_, fun i hi hr => ?_, fun hi _ hp => ?_, fun i hi hr hp => ?_⟩
  · simp [hill, hseq, hpad, nextError_of_illegal hl]
  · simp [hill, hseq, hpad, nextError_of_instr hi, commandError_of_rejected hr]
  · simp [hill, hseq, hpad, nextError_of_instr hi, commandError_of_paddingBad hp]
  · simp [hill, hseq, hpad, hcause, nextError_of_instr hi, commandError_eq_none hr hp]

end Sys2Proof.Machine

/-! Proofs about reset, waiting and the acceptance of a decode (70_reset_and_hazards.md R98, R100, R106). The decode sequence is
followed twice: `Engine.Fed` says what `VERIFY` compares, `Engine.Decodes` which bits `DECEND` finds left over. -/

namespace Sys2Proof.Machine

/-! ### Reset and waiting (R98, R100) -/

/-- A reset event takes the host's line and puts the engine at its reset value (R98). -/
theorem step_reset {s : State} {rest : List HostEvent} (h : s.pending = .reset :: rest) :
    step s = .next { s.advance rest with engine := Engine.reset } :=
  step_serves h

/-- Settles O12: `step_idle`, and two fields of the reset state. -/
theorem engineWaitsWithoutAnAccess : Obligations.EngineWaitsWithoutAnAccess :=
  ⟨fun _ => step_idle, rfl, rfl⟩

/-- Settles O21: a `CMD` write of any word completes and leaves the reset as the next event. -/
theorem resetInputRestoresTheEngine : Obligations.ResetInputRestoresTheEngine := by
  refine ⟨fun s rest hp => step_reset hp, fun s w rest hp => ?_⟩
  obtain ⟨e, he⟩ := execWord_next w (s.advance (.reset :: rest))
  exact ⟨_, _, (step_cmdWrite hp).trans he, step_reset rfl, rfl⟩

/-! ### What `DECEND` finds (R82, R91) -/

theorem heldBits_length (e : Engine) : e.heldBits.length = e.nbits.toNat := msbFirst_length _ _

/-- `DECEND` finds the padding good exactly when fewer than five bits are held, all zero. -/
theorem paddingBad_eq_false_iff {e : Engine} (he : e.RepackerOk) (hm : e.mode ≠ .enc) :
    paddingBad e = false ↔ e.heldBits.length < 5 ∧ true ∉ e.heldBits := by
  rw [paddingBad_eq_decide hm, true_mem_heldBits he, heldBits_length, decide_eq_false_iff_not, not_or, Nat.not_le]

/-- A decode without an error so far is accepted after `DECEND` exactly when `VERIFY` has set `VOK` and the padding is good
(R106). -/
theorem execEngine_decend_accepted_iff {e : Engine} (he : e.NoError) (hm : e.mode ≠ .enc) :
    (execEngine .decend e).Accepted ↔ e.vok = true ∧ paddingBad e = false := by
  obtain ⟨hill, hseq, hpad⟩ := he
  obtain ⟨hill', hseq', hpad', -⟩ := execEngine_sameErrors (i := .decend) nofun e
  have hk : commandError .decend e = if paddingBad e then some .paddingError else none := by
    simp [commandError, sequenceRejects_decend hm]
  cases hbad : paddingBad e <;>
    simp [Engine.Accepted, Engine.NoError, execEngine_vok, hill', hseq', hpad', hk, hbad, hill, hseq, hpad]

/-! ### The decode sequence (R106) -/

/-- A command that leaves the repacker and `ERR_PAD` as they are takes no bits in and gives none out. -/
theorem Engine.Decodes.of_repacker_eq {e e' : Engine} (he : e.RepackerOk) (hm : e.mode ≠ .enc) (hacc : e'.acc = e.acc)
    (hnbits : e'.nbits = e.nbits) (hmode : e'.mode = e.mode) (herr : e'.errPad = e.errPad) :
    Engine.Decodes [] [] e e' := by
  refine ⟨?_, ?_, by rwa [hmode], herr⟩
  · simp [Engine.heldBits, hacc, hnbits]
  · simpa only [Engine.RepackerOk, hacc, hnbits, hmode] using he

theorem runEngine_poly_decodes (gs : List Group) {e : Engine} (he : e.RepackerOk) (hm : e.mode ≠ .enc) :
    Engine.Decodes [] [] e (runEngine (gs.map .poly) e) := by
  induction gs generalizing e with
  | nil => exact .of_repacker_eq he hm rfl rfl rfl rfl
  | cons g gs ih =>
    have hg : Engine.Decodes [] [] e (execEngine (.poly g) e) := .of_repacker_eq he hm rfl rfl rfl rfl
    exact hg.trans (ih hg.repackerOk hg.mode)

/-- After the seed, `DEC5.P` for the data groups and `POLY` for the checksum's leave exactly the data's leftover bits held. -/
theorem runEngine_decode_heldBits (v : Variant) (p : List Byte) (data chks : List Group) {e : Engine}
    (h : runEngine (data.map (.dec5 true) ++ chks.map .poly) (seeded v p) = e) :
    e.RepackerOk ∧ e.mode ≠ .enc ∧ e.heldBits = leftoverBits data := by
  have hdata := runEngine_dec5_decodes true data (seeded_repackerOk v p) nofun
  have hall := hdata.trans (runEngine_poly_decodes chks hdata.repackerOk hdata.mode)
  rw [← runEngine_append, h, List.append_nil, List.append_nil] at hall
  have hlen := heldBits_length e
  have hle := nbits_le_seven hall.repackerOk
  have hstream := hall.stream
  rw [heldBits_of_idle (seeded_repackerOk v p) rfl, List.nil_append] at hstream
  exact ⟨hall.repackerOk, hall.mode, (decodeToBytes_of_streamBits hstream (by omega)).2.1.symm⟩

/-- Settles O59: `VERIFY` checks the groups fed, `DECEND` the bits held, and neither disturbs what the other reads. -/
theorem decodeAcceptsExactlyValidGroups : Obligations.DecodeAcceptsExactlyValidGroups := by
  intro v p data chks s _
  have hfed := runEngine_decode_fed v p data chks
  simp only [List.append_assoc (_ :: _), runAll_seeded, runEngine_append _ [_, _]]
  generalize he : runEngine (data.map (.dec5 true) ++ chks.map .poly) (seeded v p) = e at hfed
  obtain ⟨hok, hmode, hheld⟩ := runEngine_decode_heldBits v p data chks he
  have hverify := hfed.trans (execEngine_fed (i := .verify) rfl nofun nofun)
  have hvok : (execEngine .verify e).vok = verifyChecksum v p (data ++ chks) := hfed.checksumOk_eq
  have hpad : paddingBad (execEngine .verify e) = paddingBad e := rfl
  refine ⟨_, rfl, ?_⟩
  calc (execEngine .decend (execEngine .verify e)).Accepted
    _ ↔ (execEngine .verify e).vok = true ∧ paddingBad (execEngine .verify e) = false :=
      execEngine_decend_accepted_iff (hverify.errors.noError (seeded_noError v p)) hmode
    _ ↔ _ := by rw [hvok, hpad, paddingBad_eq_false_iff hok hmode, hheld]

end Sys2Proof.Machine
